-- ==== Sys2Proof/Word.lean ====
section
/-! DEFINITION. The word types of the block (00_scope.md R9, R11, R12). Every value is unsigned. -/

namespace Sys2Proof

/-- A memory byte, a general register, a timer (00_scope.md R9). -/
abbrev Byte := BitVec 8

/-- An instruction word, the program counter, the index register, a stack entry (00_scope.md R9). -/
abbrev Word := BitVec 16

/-- The index of a general register, V0 to VF (10_state.md R21). -/
abbrev RegIdx := Fin 16

/-- VF, register 15 (10_state.md R22). -/
abbrev vF : RegIdx := 15

end Sys2Proof
end

