-- ==== Sys2Proof/Syntax.lean ====
section
/-! DEFINITION. The instructions: one constructor per row of the opcode map (30_encoding.md R75), in the
table's order. Bits that neither the dispatcher nor the handler looks at (30_encoding.md R73, R76) are no
part of an instruction; log 23. -/

namespace Sys2Proof

/-- The 34 operations and the no-op. `x` and `y` are the register fields X and Y, `kk`, `nnn` and `n` the
literals KK, NNN and N (30_encoding.md R72, R74). -/
inductive Instr where
  /-- CLS, 0--0 (44_framebuffer.md R191). -/
  | cls
  /-- RET, 0--E (43_control.md R172). -/
  | ret
  /-- JP NNN, 1NNN (43_control.md R173). -/
  | jp (nnn : BitVec 12)
  /-- CALL NNN, 2NNN (43_control.md R174). -/
  | call (nnn : BitVec 12)
  /-- SE Vx, KK, 3XKK (43_control.md R175). -/
  | seImm (x : RegIdx) (kk : Byte)
  /-- SNE Vx, KK, 4XKK (43_control.md R176). -/
  | sneImm (x : RegIdx) (kk : Byte)
  /-- SE Vx, Vy, 5XY- (43_control.md R177). -/
  | seReg (x y : RegIdx)
  /-- LD Vx, KK, 6XKK (41_arithmetic.md R122). -/
  | ldImm (x : RegIdx) (kk : Byte)
  /-- ADD Vx, KK, 7XKK (41_arithmetic.md R123). -/
  | addImm (x : RegIdx) (kk : Byte)
  /-- LD Vx, Vy, 8XY0 (41_arithmetic.md R124). -/
  | ldReg (x y : RegIdx)
  /-- OR Vx, Vy, 8XY1 (41_arithmetic.md R125). -/
  | orReg (x y : RegIdx)
  /-- AND Vx, Vy, 8XY2 (41_arithmetic.md R126). -/
  | andReg (x y : RegIdx)
  /-- XOR Vx, Vy, 8XY3 (41_arithmetic.md R127). -/
  | xorReg (x y : RegIdx)
  /-- ADD Vx, Vy, 8XY4 (41_arithmetic.md R128). -/
  | addReg (x y : RegIdx)
  /-- SUB Vx, Vy, 8XY5 (41_arithmetic.md R129). -/
  | sub (x y : RegIdx)
  /-- SHR Vx, 8X-6 (41_arithmetic.md R130). -/
  | shr (x : RegIdx)
  /-- SUBN Vx, Vy, 8XY7 (41_arithmetic.md R131). -/
  | subn (x y : RegIdx)
  /-- SHL Vx, 8X-E (41_arithmetic.md R132). -/
  | shl (x : RegIdx)
  /-- SNE Vx, Vy, 9XY- (43_control.md R178). -/
  | sneReg (x y : RegIdx)
  /-- LD I, NNN, ANNN (42_memory_index.md R150). -/
  | ldI (nnn : BitVec 12)
  /-- JP V0, NNN, BNNN (43_control.md R179). -/
  | jpV0 (nnn : BitVec 12)
  /-- RND Vx, KK, CXKK (41_arithmetic.md R133). -/
  | rnd (x : RegIdx) (kk : Byte)
  /-- DRW Vx, Vy, N, DXYN (44_framebuffer.md R193). -/
  | drw (x y : RegIdx) (n : BitVec 4)
  /-- SKP Vx, EX-E (45_timer_input.md R210). -/
  | skp (x : RegIdx)
  /-- SKNP Vx, EX-1 (45_timer_input.md R211). -/
  | sknp (x : RegIdx)
  /-- LD Vx, DT, FX07 (45_timer_input.md R212). -/
  | ldVxDt (x : RegIdx)
  /-- LD Vx, K, FX0A (45_timer_input.md R213). -/
  | ldVxK (x : RegIdx)
  /-- LD DT, Vx, FX15 (45_timer_input.md R214). -/
  | ldDtVx (x : RegIdx)
  /-- LD ST, Vx, FX18 (45_timer_input.md R215). -/
  | ldStVx (x : RegIdx)
  /-- ADD I, Vx, FX1E (42_memory_index.md R151). -/
  | addI (x : RegIdx)
  /-- LD F, Vx, FX29 (42_memory_index.md R152). -/
  | ldF (x : RegIdx)
  /-- LD B, Vx, FX33 (42_memory_index.md R153). -/
  | ldB (x : RegIdx)
  /-- LD [I], Vx, FX55 (42_memory_index.md R154). -/
  | ldMemVx (x : RegIdx)
  /-- LD Vx, [I], FX65 (42_memory_index.md R155). -/
  | ldVxMem (x : RegIdx)
  /-- NOP: any other word, kept as `w` (40_cycle.md R107; `.word w` in 30_encoding.md R81). -/
  | nop (w : Word)
  deriving DecidableEq, Repr

/-- The row of spec/opcode_table.json an instruction belongs to. -/
def Instr.mnemonic : Instr → String
  | .cls => "CLS"
  | .ret => "RET"
  | .jp _ => "JP_NNN"
  | .call _ => "CALL_NNN"
  | .seImm _ _ => "SE_Vx__KK"
  | .sneImm _ _ => "SNE_Vx__KK"
  | .seReg _ _ => "SE_Vx__Vy"
  | .ldImm _ _ => "LD_Vx__KK"
  | .addImm _ _ => "ADD_Vx__KK"
  | .ldReg _ _ => "LD_Vx__Vy"
  | .orReg _ _ => "OR_Vx__Vy"
  | .andReg _ _ => "AND_Vx__Vy"
  | .xorReg _ _ => "XOR_Vx__Vy"
  | .addReg _ _ => "ADD_Vx__Vy"
  | .sub _ _ => "SUB_Vx__Vy"
  | .shr _ => "SHR_Vx"
  | .subn _ _ => "SUBN_Vx__Vy"
  | .shl _ => "SHL_Vx"
  | .sneReg _ _ => "SNE_Vx__Vy"
  | .ldI _ => "LD_I__NNN"
  | .jpV0 _ => "JP_V0__NNN"
  | .rnd _ _ => "RND_Vx__KK"
  | .drw _ _ _ => "DRW_Vx__Vy__N"
  | .skp _ => "SKP_Vx"
  | .sknp _ => "SKNP_Vx"
  | .ldVxDt _ => "LD_Vx__DT"
  | .ldVxK _ => "LD_Vx__K"
  | .ldDtVx _ => "LD_DT__Vx"
  | .ldStVx _ => "LD_ST__Vx"
  | .addI _ => "ADD_I__Vx"
  | .ldF _ => "LD_F__Vx"
  | .ldB _ => "LD_B__Vx"
  | .ldMemVx _ => "LD__I___Vx"
  | .ldVxMem _ => "LD_Vx___I"
  | .nop _ => "NOP"

end Sys2Proof
end

