-- ==== Sys2Proof/WellFormed.lean ====
section
/-! DEFINITION. Which instruction terms stand for something. Every operand is exactly as wide as its field,
and every value of every field is legal (30_encoding.md R74), so the one check is on NOP: the word it keeps
must be one that no row of the opcode map takes (30_encoding.md R77). -/

namespace Sys2Proof

/-- The low bytes of the nine populated group-F entries (30_encoding.md R80). -/
def groupFKeys : List Byte := [0x07, 0x0A, 0x15, 0x18, 0x1E, 0x29, 0x33, 0x55, 0x65]

/-- The low nibbles of group 8 that select no operation (30_encoding.md R77). -/
def group8Holes : List (BitVec 4) := [0x8, 0x9, 0xA, 0xB, 0xC, 0xD, 0xF]

/-- The unrecognised words, group by group as 30_encoding.md R77 lists them. Every word of any other
group is recognised. -/
def unrecognised (w : Word) : Bool :=
  let hi : BitVec 4 := w.extractLsb' 12 4
  let lo : BitVec 4 := w.extractLsb' 0 4
  let low : Byte := w.extractLsb' 0 8
  if hi = 0x0 then lo != 0x0 && lo != 0xE
  else if hi = 0x8 then group8Holes.contains lo
  else if hi = 0xE then lo != 0x1 && lo != 0xE
  else if hi = 0xF then !groupFKeys.contains low
  else false

/-- The check: a NOP keeps an unrecognised word; every other term is well formed by its types. -/
def Instr.wellFormed : Instr → Bool
  | .cls | .ret | .jp _ | .call _ | .seImm _ _ | .sneImm _ _ | .seReg _ _ => true
  | .ldImm _ _ | .addImm _ _ | .ldReg _ _ | .orReg _ _ | .andReg _ _ | .xorReg _ _ => true
  | .addReg _ _ | .sub _ _ | .shr _ | .subn _ _ | .shl _ | .sneReg _ _ | .ldI _ | .jpV0 _ => true
  | .rnd _ _ | .drw _ _ _ | .skp _ | .sknp _ | .ldVxDt _ | .ldVxK _ | .ldDtVx _ | .ldStVx _ => true
  | .addI _ | .ldF _ | .ldB _ | .ldMemVx _ | .ldVxMem _ => true
  | .nop w => unrecognised w

end Sys2Proof
end

