-- ==== Sys2Proof/Decode.lean ====
section
/-! DEFINITION. The two-level dispatcher (30_encoding.md R71), the flat opcode map it must agree with (R75),
the decoder over bytes, and after them the encoder. Decoding depends on the word alone (R79) and is total
(R78): an unrecognised word is a NOP, and the only byte sequences refused are those shorter than a word. -/

namespace Sys2Proof

/-- X = w[11:8] (30_encoding.md R72). -/
def fieldX (w : Word) : RegIdx := (w.extractLsb' 8 4).toFin

/-- Y = w[7:4] (30_encoding.md R72). -/
def fieldY (w : Word) : RegIdx := (w.extractLsb' 4 4).toFin

/-- N = w[3:0] (30_encoding.md R72). -/
def fieldN (w : Word) : BitVec 4 := w.extractLsb' 0 4

/-- KK = w[7:0] (30_encoding.md R72). -/
def fieldKK (w : Word) : Byte := w.extractLsb' 0 8

/-- NNN = w[11:0] (30_encoding.md R72). -/
def fieldNNN (w : Word) : BitVec 12 := w.extractLsb' 0 12

/-- The primary key: the high nibble w[15:12] (30_encoding.md R71). -/
def primaryKey (w : Word) : Nat := (w.extractLsb' 12 4).toNat

/-- The secondary key of groups 0, 8 and E: the low nibble w[3:0] (30_encoding.md R71). -/
def nibbleKey (w : Word) : Nat := (w.extractLsb' 0 4).toNat

/-- The secondary key of group F: the low byte w[7:0] (30_encoding.md R71). -/
def byteKey (w : Word) : Nat := (w.extractLsb' 0 8).toNat

/-- The secondary table of group 0 (30_encoding.md R75, R76). -/
def decodeGroup0 (w : Word) : Instr :=
  match nibbleKey w with
  | 0x0 => .cls
  | 0xE => .ret
  | _ => .nop w

/-- The secondary table of group 8 (30_encoding.md R75). -/
def decodeGroup8 (w : Word) : Instr :=
  match nibbleKey w with
  | 0x0 => .ldReg (fieldX w) (fieldY w)
  | 0x1 => .orReg (fieldX w) (fieldY w)
  | 0x2 => .andReg (fieldX w) (fieldY w)
  | 0x3 => .xorReg (fieldX w) (fieldY w)
  | 0x4 => .addReg (fieldX w) (fieldY w)
  | 0x5 => .sub (fieldX w) (fieldY w)
  | 0x6 => .shr (fieldX w)
  | 0x7 => .subn (fieldX w) (fieldY w)
  | 0xE => .shl (fieldX w)
  | _ => .nop w

/-- The secondary table of group E (30_encoding.md R75, R76). -/
def decodeGroupE (w : Word) : Instr :=
  match nibbleKey w with
  | 0x1 => .sknp (fieldX w)
  | 0xE => .skp (fieldX w)
  | _ => .nop w

/-- The secondary table of group F: nine populated entries (30_encoding.md R75, R80). -/
def decodeGroupF (w : Word) : Instr :=
  match byteKey w with
  | 0x07 => .ldVxDt (fieldX w)
  | 0x0A => .ldVxK (fieldX w)
  | 0x15 => .ldDtVx (fieldX w)
  | 0x18 => .ldStVx (fieldX w)
  | 0x1E => .addI (fieldX w)
  | 0x29 => .ldF (fieldX w)
  | 0x33 => .ldB (fieldX w)
  | 0x55 => .ldMemVx (fieldX w)
  | 0x65 => .ldVxMem (fieldX w)
  | _ => .nop w

/-- The dispatcher: every one of the 65536 words to exactly one handler (30_encoding.md R71, R75, R78).
The last arm is never taken, a nibble being at most 0xF. -/
def decode (w : Word) : Instr :=
  match primaryKey w with
  | 0x0 => decodeGroup0 w
  | 0x1 => .jp (fieldNNN w)
  | 0x2 => .call (fieldNNN w)
  | 0x3 => .seImm (fieldX w) (fieldKK w)
  | 0x4 => .sneImm (fieldX w) (fieldKK w)
  | 0x5 => .seReg (fieldX w) (fieldY w)
  | 0x6 => .ldImm (fieldX w) (fieldKK w)
  | 0x7 => .addImm (fieldX w) (fieldKK w)
  | 0x8 => decodeGroup8 w
  | 0x9 => .sneReg (fieldX w) (fieldY w)
  | 0xA => .ldI (fieldNNN w)
  | 0xB => .jpV0 (fieldNNN w)
  | 0xC => .rnd (fieldX w) (fieldKK w)
  | 0xD => .drw (fieldX w) (fieldY w) (fieldN w)
  | 0xE => decodeGroupE w
  | 0xF => decodeGroupF w
  | _ => .nop w

/-- The instruction word of two bytes, high byte first (20_memory.md R55). -/
def wordOfBytes (hi lo : Byte) : Word := (hi.setWidth 16 <<< 8) ||| lo.setWidth 16

/-- Why bytes hold no instruction. -/
inductive DecodeError where
  /-- Fewer than the two bytes of an instruction word (30_encoding.md R70). -/
  | truncated
  deriving DecidableEq, Repr

/-- Read one instruction from the front of a byte sequence and return the rest (30_encoding.md R70). -/
def decodeBytes : List Byte → Except DecodeError (Instr × List Byte)
  | hi :: lo :: rest => .ok (decode (wordOfBytes hi lo), rest)
  | [_] => .error .truncated
  | [] => .error .truncated

/-- A row of the opcode map: a word `w` decodes to it when `w &&& mask = pattern` (30_encoding.md R75). -/
structure OpcodeRow where
  mnemonic : String
  mask : Word
  pattern : Word
  deriving DecidableEq, Repr

/-- The rows of 30_encoding.md R75 for high nibbles 0 to 7, as the table has them. -/
def opcodeMapLow : List OpcodeRow :=
  [⟨"CLS", 0xF00F, 0x0000⟩, ⟨"RET", 0xF00F, 0x000E⟩, ⟨"JP_NNN", 0xF000, 0x1000⟩, ⟨"CALL_NNN", 0xF000, 0x2000⟩,
   ⟨"SE_Vx__KK", 0xF000, 0x3000⟩, ⟨"SNE_Vx__KK", 0xF000, 0x4000⟩, ⟨"SE_Vx__Vy", 0xF000, 0x5000⟩,
   ⟨"LD_Vx__KK", 0xF000, 0x6000⟩, ⟨"ADD_Vx__KK", 0xF000, 0x7000⟩]

/-- The rows of 30_encoding.md R75 for high nibble 8. -/
def opcodeMapAlu : List OpcodeRow :=
  [⟨"LD_Vx__Vy", 0xF00F, 0x8000⟩, ⟨"OR_Vx__Vy", 0xF00F, 0x8001⟩, ⟨"AND_Vx__Vy", 0xF00F, 0x8002⟩,
   ⟨"XOR_Vx__Vy", 0xF00F, 0x8003⟩, ⟨"ADD_Vx__Vy", 0xF00F, 0x8004⟩, ⟨"SUB_Vx__Vy", 0xF00F, 0x8005⟩,
   ⟨"SHR_Vx", 0xF00F, 0x8006⟩, ⟨"SUBN_Vx__Vy", 0xF00F, 0x8007⟩, ⟨"SHL_Vx", 0xF00F, 0x800E⟩]

/-- The rows of 30_encoding.md R75 for high nibbles 9 to E. -/
def opcodeMapHigh : List OpcodeRow :=
  [⟨"SNE_Vx__Vy", 0xF000, 0x9000⟩, ⟨"LD_I__NNN", 0xF000, 0xA000⟩, ⟨"JP_V0__NNN", 0xF000, 0xB000⟩,
   ⟨"RND_Vx__KK", 0xF000, 0xC000⟩, ⟨"DRW_Vx__Vy__N", 0xF000, 0xD000⟩, ⟨"SKP_Vx", 0xF00F, 0xE00E⟩,
   ⟨"SKNP_Vx", 0xF00F, 0xE001⟩]

/-- The rows of 30_encoding.md R75 for high nibble F. -/
def opcodeMapF : List OpcodeRow :=
  [⟨"LD_Vx__DT", 0xF0FF, 0xF007⟩, ⟨"LD_Vx__K", 0xF0FF, 0xF00A⟩, ⟨"LD_DT__Vx", 0xF0FF, 0xF015⟩,
   ⟨"LD_ST__Vx", 0xF0FF, 0xF018⟩, ⟨"ADD_I__Vx", 0xF0FF, 0xF01E⟩, ⟨"LD_F__Vx", 0xF0FF, 0xF029⟩,
   ⟨"LD_B__Vx", 0xF0FF, 0xF033⟩, ⟨"LD__I___Vx", 0xF0FF, 0xF055⟩, ⟨"LD_Vx___I", 0xF0FF, 0xF065⟩]

/-- The opcode map of 30_encoding.md R75, all rows but the default NOP. It is the flat view of the
dispatcher, used by claims about `decode`; `decode` itself does not read it. -/
def opcodeMap : List OpcodeRow := opcodeMapLow ++ opcodeMapAlu ++ opcodeMapHigh ++ opcodeMapF

/-- A register index as its four bits. -/
def nibble (x : RegIdx) : BitVec 4 := BitVec.ofFin x

/-- A word of a digit and a 12-bit literal (format F-NNN of 30_encoding.md R73). -/
def wordNNN (op : BitVec 4) (nnn : BitVec 12) : Word := op ++ nnn

/-- A word of two digits and a byte (formats F-XKK, F-Xf, F-Xe, F-Xff of 30_encoding.md R73). -/
def wordXKK (op : BitVec 4) (x : RegIdx) (kk : Byte) : Word := op ++ nibble x ++ kk

/-- A word of four digits (formats F-XY, F-XYf, F-XYN of 30_encoding.md R73). -/
def wordXYN (op : BitVec 4) (x y : RegIdx) (n : BitVec 4) : Word := op ++ nibble x ++ nibble y ++ n

/-- The canonical word of an instruction, ignored bits filled as 30_encoding.md R81 says
(00E0, 00EE, 5XY0, 9XY0, 8X06, 8X0E, EX9E, EXA1). -/
def encode : Instr → Word
  | .cls => 0x00E0#16
  | .ret => 0x00EE#16
  | .jp nnn => wordNNN 0x1#4 nnn
  | .call nnn => wordNNN 0x2#4 nnn
  | .seImm x kk => wordXKK 0x3#4 x kk
  | .sneImm x kk => wordXKK 0x4#4 x kk
  | .seReg x y => wordXYN 0x5#4 x y 0x0#4
  | .ldImm x kk => wordXKK 0x6#4 x kk
  | .addImm x kk => wordXKK 0x7#4 x kk
  | .ldReg x y => wordXYN 0x8#4 x y 0x0#4
  | .orReg x y => wordXYN 0x8#4 x y 0x1#4
  | .andReg x y => wordXYN 0x8#4 x y 0x2#4
  | .xorReg x y => wordXYN 0x8#4 x y 0x3#4
  | .addReg x y => wordXYN 0x8#4 x y 0x4#4
  | .sub x y => wordXYN 0x8#4 x y 0x5#4
  | .shr x => wordXKK 0x8#4 x 0x06#8
  | .subn x y => wordXYN 0x8#4 x y 0x7#4
  | .shl x => wordXKK 0x8#4 x 0x0E#8
  | .sneReg x y => wordXYN 0x9#4 x y 0x0#4
  | .ldI nnn => wordNNN 0xA#4 nnn
  | .jpV0 nnn => wordNNN 0xB#4 nnn
  | .rnd x kk => wordXKK 0xC#4 x kk
  | .drw x y n => wordXYN 0xD#4 x y n
  | .skp x => wordXKK 0xE#4 x 0x9E#8
  | .sknp x => wordXKK 0xE#4 x 0xA1#8
  | .ldVxDt x => wordXKK 0xF#4 x 0x07#8
  | .ldVxK x => wordXKK 0xF#4 x 0x0A#8
  | .ldDtVx x => wordXKK 0xF#4 x 0x15#8
  | .ldStVx x => wordXKK 0xF#4 x 0x18#8
  | .addI x => wordXKK 0xF#4 x 0x1E#8
  | .ldF x => wordXKK 0xF#4 x 0x29#8
  | .ldB x => wordXKK 0xF#4 x 0x33#8
  | .ldMemVx x => wordXKK 0xF#4 x 0x55#8
  | .ldVxMem x => wordXKK 0xF#4 x 0x65#8
  | .nop w => w

/-- A word as the two bytes memory holds it in, high byte first (20_memory.md R55). -/
def bytesOfWord (w : Word) : List Byte := [w.extractLsb' 8 8, w.extractLsb' 0 8]

/-- The bytes of an instruction as memory holds them. -/
def encodeBytes (i : Instr) : List Byte := bytesOfWord (encode i)

/-- The bits of an instruction's word that the dispatcher compares or the handler reads; the others are
the `-` bits of 30_encoding.md R73. -/
def usedBits : Instr → Word
  | .cls | .ret => 0xF00F
  | .jp _ | .call _ | .ldI _ | .jpV0 _ => 0xFFFF
  | .seImm _ _ | .sneImm _ _ | .ldImm _ _ | .addImm _ _ | .rnd _ _ => 0xFFFF
  | .seReg _ _ | .sneReg _ _ => 0xFFF0
  | .ldReg _ _ | .orReg _ _ | .andReg _ _ | .xorReg _ _ | .addReg _ _ | .sub _ _ | .subn _ _ => 0xFFFF
  | .shr _ | .shl _ | .skp _ | .sknp _ => 0xFF0F
  | .drw _ _ _ => 0xFFFF
  | .ldVxDt _ | .ldVxK _ | .ldDtVx _ | .ldStVx _ | .addI _ | .ldF _ | .ldB _ | .ldMemVx _ | .ldVxMem _ => 0xFFFF
  | .nop _ => 0xFFFF

/-- The instruction the decoder reads from a word numbered as spec/opcode_table.json numbers it (bit 0 the
least significant bit of the one 16-bit word), the bits at `nbits` and above being 0, laid out in memory
order. -/
def decodeTableWord (nbits w : Nat) : Option Instr :=
  match decodeBytes (bytesOfWord (BitVec.ofNat 16 (w % 2 ^ nbits))) with
  | .ok (i, _) => some i
  | .error _ => none

end Sys2Proof
end

