-- ==== Sys2Proof/Config.lean ====
section
/-! DEFINITION. What an implementation fixes (00_scope.md R10) and the free values. The types of the
parameters stand here; the spec's defaults stand in Sys2Proof/Machine/Params.lean. -/

namespace Sys2Proof

/-- What a step does when a byte of the fetch lies outside memory (40_cycle.md R102, 92_eei_decisions.md D3). -/
inductive FetchOobPolicy where
  /-- No handler runs; pc advances and the timers tick. The spec's default. -/
  | nop
  /-- The step raises the model-level fault of 60_exceptions.md R233. -/
  | fault
  deriving DecidableEq, Repr

/-- What CALL does when all 16 stack entries are in use (43_control.md R174, 92_eei_decisions.md D6). -/
inductive CallFullPolicy where
  /-- No state changes. The spec's default. -/
  | nop
  /-- pc is loaded with the target, nothing is pushed. -/
  | jump
  deriving DecidableEq, Repr

/-- How SUB, SUBN, SHR and SHL read their operands when one of them is VF
(41_arithmetic.md R121, 92_eei_decisions.md D8). -/
inductive AluFlagAlias where
  /-- The result is computed from the registers as the flag write left them. The spec's default. -/
  | sequential
  /-- Every operand is read before either write. -/
  | snapshot
  deriving DecidableEq, Repr

/-- The three policies of 00_scope.md R10. -/
structure Policies where
  fetchOob : FetchOobPolicy
  callFull : CallFullPolicy
  aluFlagAlias : AluFlagAlias
  deriving DecidableEq, Repr

/-- The parameters of 00_scope.md R10 that a block is constructed with: the policies and FONT. The other two
are inputs of a step: `rnd` (the free value below) and `keys` (State). -/
structure Params where
  policies : Policies
  /-- FONT, 80 bytes (10_state.md R34). -/
  font : Vector Byte 80
  deriving DecidableEq, Repr

/-- FREE VALUE: the byte the random source supplies as its n-th draw (41_arithmetic.md R133, 60_exceptions.md
R245, 92_eei_decisions.md D18: "a free draw per RND execution, any byte, under no law"). It has no body, so
nothing can be proved of a drawn byte. Log 3; safe. -/
opaque Config.rnd : Nat → Byte

end Sys2Proof
end

