-- ==== Sys2Proof/Machine/Params.lean ====
section
/-! DEFINITION. The spec's defaults for the block's parameters, and its fixed sizes (00_scope.md R9, R10). A block
may be constructed with any parameters (`State.construct`, Sys2Proof/Machine/Ports.lean); the policies stand in
State, so `exec` and `step` run under every setting. -/

namespace Sys2Proof.Machine

/-- FONT, glyphs 0 to 7, five bytes each (10_state.md R34). -/
def fontLow : List Byte :=
  [0xF0, 0x90, 0x90, 0x90, 0xF0,  0x20, 0x60, 0x20, 0x20, 0x70,
   0xF0, 0x10, 0xF0, 0x80, 0xF0,  0xF0, 0x10, 0xF0, 0x10, 0xF0,
   0x90, 0x90, 0xF0, 0x10, 0x10,  0xF0, 0x80, 0xF0, 0x10, 0xF0,
   0xF0, 0x80, 0xF0, 0x90, 0xF0,  0xF0, 0x10, 0x20, 0x40, 0x40]

/-- FONT, glyphs 8 to F (10_state.md R34). -/
def fontHigh : List Byte :=
  [0xF0, 0x90, 0xF0, 0x90, 0xF0,  0xF0, 0x90, 0xF0, 0x10, 0xF0,
   0xF0, 0x90, 0xF0, 0x90, 0x90,  0xE0, 0x90, 0xE0, 0x90, 0xE0,
   0xF0, 0x80, 0x80, 0x80, 0xF0,  0xE0, 0x90, 0x90, 0x90, 0xE0,
   0xF0, 0x80, 0xF0, 0x80, 0xF0,  0xF0, 0x80, 0xF0, 0x80, 0x80]

/-- The 80 bytes of FONT's default: the table of 10_state.md R34, which the spec supplies from general knowledge
(92_eei_decisions.md D13). Log 7; unsafe. -/
def font : List Byte := fontLow ++ fontHigh

/-- FETCH_OOB_POLICY = nop, CALL_FULL_POLICY = nop, ALU_FLAG_ALIAS = sequential: the defaults of
00_scope.md R10 (92_eei_decisions.md D3, D6, D8). Logs 4, 5, 6; unsafe. -/
def policies : Policies := { fetchOob := .nop, callFull := .nop, aluFlagAlias := .sequential }

/-- Every parameter at the spec's default (00_scope.md R10). -/
def params : Params := { policies := policies, font := ⟨font.toArray, rfl⟩ }

/-- The font's base address (00_scope.md R9). -/
def fontBase : Nat := 0x050

/-- Where a program is loaded and execution starts (00_scope.md R9, 70_reset_and_hazards.md R266). -/
def programStart : Nat := 0x200

/-- The number of bytes of memory (00_scope.md R9). -/
def memorySize : Nat := 4096

/-- The largest program image, 4096 - 0x200 bytes (00_scope.md R9). -/
def maxImage : Nat := 3584

end Sys2Proof.Machine
end

