-- ==== Sys2Proof/Machine/State.lean ====
section
/-! DEFINITION. The machine's state (10_state.md R20), the reasons a step can stop, and the state after
construction (70_reset_and_hazards.md R260). Plain data throughout. -/

namespace Sys2Proof.Machine

/-- The one memory (20_memory.md R50): the bytes that differ from the reset contents, by rising address.
An address not listed reads as `Memory.unlisted` of Sys2Proof/Machine/Memory.lean. -/
abbrev Memory := List Host.Cell

/-- The 64 by 32 pixels, row r then column c, each on or off (10_state.md R31). -/
abbrev Framebuffer := Vector (Vector Bool 64) 32

/-- The keypad, entry k true when key k is pressed (10_state.md R32). -/
abbrev Keypad := Vector Bool 16

/-- Why the machine stops with a fault. -/
inductive Fault where
  /-- 60_exceptions.md R233. Raised by the fetch stage (`cycleWith`, Sys2Proof/Machine/Cycle.lean) when a byte of the
  fetch at `pc` lies outside memory and the state's FETCH_OOB_POLICY is `fault`; never under the default, `nop`.
  Safe: the machine stops where the default goes on. -/
  | fetchOutOfBounds (pc : Word)
  deriving DecidableEq, Repr

/-- Why the machine refuses an instruction. -/
inductive Refusal where
  /-- An arm of exec that has no meaning yet; none is left. Safe: a run stops there. -/
  | notModelled (mnemonic : String)
  deriving DecidableEq, Repr

/-- The state. The first nine fields are the tuple of 10_state.md R20; `keys` is the host-owned input a step
reads (R32); `policies` holds the block's fixed parameters (00_scope.md R10); `pendingKeys` and `draws` are the
model's own. -/
structure State where
  /-- V0 to VF (R21). -/
  regs : Vector Byte 16
  /-- The index register I (R27). -/
  index : Word
  /-- The program counter (R24). -/
  pc : Word
  /-- The call stack's entries (R28). -/
  stack : Vector Word 16
  /-- The stack pointer: how many entries are in use (R28, R29). -/
  sp : Fin 17
  /-- The delay timer DT (R30). -/
  dt : Byte
  /-- The sound timer ST (R30). -/
  st : Byte
  /-- The framebuffer (R31). -/
  fb : Framebuffer
  /-- The memory (R33). -/
  mem : Memory
  /-- The keypad as the host left it (R32, 60_exceptions.md R242). -/
  keys : Keypad
  /-- THE MODEL'S OWN: the snapshots the host will overwrite the keypad with, one before each coming step,
  oldest first; with none left the keypad stands (60_exceptions.md R247; log 1). -/
  pendingKeys : List Keypad
  /-- THE MODEL'S OWN: how many bytes the random source has supplied; the next draw is `Config.rnd draws`
  (60_exceptions.md R245; log 3). -/
  draws : Nat
  /-- The policies the block was constructed with (00_scope.md R10). No step changes them; that they stand in State
  is the model's choice (log 24). -/
  policies : Policies
  deriving DecidableEq, Repr

/-- The state after construction (70_reset_and_hazards.md R260): memory at its reset contents, everything
zero, pc = 0x200. The keypad is not reset by the block; no key pressed is DESIGN CHOICE (log 2), as are an idle
host (log 1) and the draw counter (log 3). The parameters are the spec's defaults; a block with any others is
`State.construct` of Sys2Proof/Machine/Ports.lean. -/
def State.reset : State where
  regs := Vector.replicate 16 0
  index := 0x0000
  pc := 0x0200
  stack := Vector.replicate 16 0
  sp := 0
  dt := 0
  st := 0
  fb := Vector.replicate 32 (Vector.replicate 64 false)
  mem := []
  keys := Vector.replicate 16 false
  pendingKeys := []
  draws := 0
  policies := Sys2Proof.Machine.policies

end Sys2Proof.Machine
end

