-- ==== Sys2Proof/Machine/Memory.lean ====
section
/-! DEFINITION. Memory as a list of cells in one canonical form, and its one-byte accesses
(20_memory.md R50 to R56). Wider views are built from these two in one place each. -/

namespace Sys2Proof.Machine

/-- What an address that is not listed reads as: the reset contents under the default FONT, which lies at
0x050..0x09F, and 0x00 elsewhere (20_memory.md R51, 70_reset_and_hazards.md R260). A block constructed with
another FONT lists the bytes that differ (`State.construct`). -/
def Memory.unlisted (a : Nat) : Byte :=
  if fontBase ≤ a then font.getD (a - fontBase) 0x00 else 0x00

/-- `InBounds(a)` (00_scope.md R13): an unbounded integer below 4096. -/
def inBounds (a : Nat) : Bool := decide (a < memorySize)

/-- `MemRead(a, 1)` (00_scope.md R13). Used only where `inBounds a`. -/
def Memory.read : Memory → Nat → Byte
  | [], a => Memory.unlisted a
  | (b, v) :: m, a => if b = a then v else Memory.read m a

/-- Put a cell into its place by address. -/
def Memory.insertCell (a : Nat) (v : Byte) : Memory → Memory
  | [] => [(a, v)]
  | c :: m => if a < c.1 then (a, v) :: c :: m else c :: Memory.insertCell a v m

/-- Drop what is listed for an address. -/
def Memory.erase (m : Memory) (a : Nat) : Memory := m.filter (fun c => c.1 != a)

/-- `MemWrite(a, 1, v)` (00_scope.md R13). Used only where `inBounds a`. Writing the value an unlisted
address reads as removes the entry, so equal memories are equal lists. -/
def Memory.write (m : Memory) (a : Nat) (v : Byte) : Memory :=
  if v = Memory.unlisted a then m.erase a else Memory.insertCell a v (m.erase a)

/-- The canonical form: strictly rising addresses, every one in bounds, no entry equal to what an unlisted
address reads as. -/
abbrev Memory.wf (m : Memory) : Prop :=
  m.Pairwise (fun c d => c.1 < d.1) ∧ ∀ c ∈ m, c.1 < memorySize ∧ c.2 ≠ Memory.unlisted c.1

/-- A one-byte store under the policy of 20_memory.md R54: out of bounds, nothing is written. -/
def Memory.store (m : Memory) (a : Nat) (v : Byte) : Memory :=
  if inBounds a then m.write a v else m

/-- Consecutive one-byte stores from `a` upwards, in ascending order, each skipped alone when out of bounds
(20_memory.md R54, R56). -/
def Memory.storeList (m : Memory) (a : Nat) : List Byte → Memory
  | [] => m
  | v :: vs => Memory.storeList (m.store a v) (a + 1) vs

/-- The big-endian instruction word at `a` (20_memory.md R55). Used only where both bytes are in bounds. -/
def Memory.fetchWord (m : Memory) (a : Nat) : Word := wordOfBytes (m.read a) (m.read (a + 1))

end Sys2Proof.Machine
end

