-- ==== Sys2Proof/Machine/Ops.lean ====
section
/-! DEFINITION. The named operations over the state: the primitives of 00_scope.md R13 and the shared steps
of the handlers. The block has no exception to take and none to return from (60_exceptions.md R230, R236), so
no such operation stands here. -/

namespace Sys2Proof.Machine

/-- The outcome of a handler and of a step. -/
abbrev Result := Host.Outcome State Fault Refusal

/-- `x[i]` (00_scope.md R13). -/
def State.reg (s : State) (x : RegIdx) : Byte := s.regs[x.val]

/-- `x[i] <- v` (00_scope.md R13). -/
def State.setReg (x : RegIdx) (v : Byte) (s : State) : State := { s with regs := s.regs.set x.val v }

/-- `I <- v`. -/
def State.setIndex (v : Word) (s : State) : State := { s with index := v }

/-- `pc <- target`; a 16-bit value, so every sum is modulo 2^16 (10_state.md R25). -/
def State.setPc (v : Word) (s : State) : State := { s with pc := v }

/-- `DT <- v`. -/
def State.setDt (v : Byte) (s : State) : State := { s with dt := v }

/-- `ST <- v`. -/
def State.setSt (v : Byte) (s : State) : State := { s with st := v }

/-- The framebuffer replaced. -/
def State.setFb (v : Framebuffer) (s : State) : State := { s with fb := v }

/-- The memory replaced. -/
def State.setMem (v : Memory) (s : State) : State := { s with mem := v }

/-- The pre-increment of 40_cycle.md R103 and the step of a skip (43_control.md R171): pc + 2 modulo 2^16. -/
def State.advancePc (s : State) : State := s.setPc (s.pc + 2)

/-- The wait of LD Vx, K: pc - 2 modulo 2^16 (45_timer_input.md R213). -/
def State.retreatPc (s : State) : State := s.setPc (s.pc - 2)

/-- A conditional skip (43_control.md R171). -/
def State.skipIf (c : Bool) (s : State) : State := if c then s.advancePc else s

/-- All 16 stack entries are in use (10_state.md R28). -/
def State.stackFull (s : State) : Bool := s.sp.val == 16

/-- No stack entry is in use (10_state.md R28). -/
def State.stackEmpty (s : State) : Bool := s.sp.val == 0

/-- `Push(v)` (10_state.md R28). Used only when SP < 16. -/
def State.push (v : Word) (s : State) : State :=
  { s with stack := s.stack.setIfInBounds s.sp.val v, sp := ⟨min (s.sp.val + 1) 16, by omega⟩ }

/-- The entry `Pop()` returns, stack[SP - 1] (10_state.md R28). Used only when SP > 0. -/
def State.top (s : State) : Word := s.stack[s.sp.val - 1]

/-- The state after `Pop()`: SP down by one, the entry kept (10_state.md R28). Used only when SP > 0. -/
def State.pop (s : State) : State := { s with sp := ⟨s.sp.val - 1, by omega⟩ }

/-- Draw a byte: the random source's counter moves on (60_exceptions.md R245). -/
def State.advanceDraw (s : State) : State := { s with draws := s.draws + 1 }

/-- The byte drawn for this step, a free value (41_arithmetic.md R133; log 3). -/
def State.drawnByte (s : State) : Byte := Config.rnd s.draws

/-- The keypad entry a value names: `k < 16 and key[k]` (45_timer_input.md R210). -/
def State.keyPressed (s : State) (k : Nat) : Bool := if h : k < 16 then s.keys[k] else false

/-- The least pressed key (45_timer_input.md R213). -/
def State.leastKey (s : State) : Option Nat := (List.range 16).find? (fun k => s.keyPressed k)

/-- The keypad replaced by the host (60_exceptions.md R242, R247). -/
def State.setKeys (k : Keypad) (s : State) : State := { s with keys := k }

/-- One-byte stores from address `a` upwards, each out-of-bounds one skipped alone (20_memory.md R54). -/
def State.storeBytes (a : Nat) (bs : List Byte) (s : State) : State := s.setMem (s.mem.storeList a bs)

/-- Registers V0 to V(n-1) as a list. -/
def State.firstRegs (s : State) (n : Nat) : List Byte := s.regs.toList.take n

/-- One iteration of LD Vx, [I]: register `k` from address `a`, unless `a` is out of bounds
(42_memory_index.md R155). -/
def State.loadReg (k a : Nat) (s : State) : State :=
  if h : k < 16 then (if inBounds a then s.setReg ⟨k, h⟩ (s.mem.read a) else s) else s

/-- Registers V0 to V(n-1) from `a`, `a + 1`, … in ascending order (42_memory_index.md R155). -/
def State.loadRegs (a : Nat) : Nat → State → State
  | 0, s => s
  | n + 1, s => (State.loadRegs a n s).loadReg n (a + n)

/-- The timer stage: each timer down by one when non-zero (60_exceptions.md R238). -/
def decrement (v : Byte) : Byte := if v = 0 then 0 else v - 1

/-- The timer stage of a step (60_exceptions.md R238). -/
def State.tickTimers (s : State) : State := { s with dt := decrement s.dt, st := decrement s.st }

/-- Apply a function to a next state; a fault or a refusal stays. -/
def mapNext (f : State → State) : Result → Result
  | .next s => .next (f s)
  | .fault r => .fault r
  | .refused r => .refused r

end Sys2Proof.Machine
end

