-- ==== Sys2Proof/Machine/Operands.lean ====
section
/-! DEFINITION. Every operand form: the effective address, the jump targets, the glyph address, the decimal
digits and the sprite's pixels. -/

namespace Sys2Proof.Machine

/-- The only addressing mode, `I + k` as an unbounded integer (head of 42_memory_index.md; 20_memory.md R54). -/
def State.effAddr (s : State) (k : Nat) : Nat := s.index.toNat + k

/-- A 12-bit literal as an address, `zext_16(NNN)` (30_encoding.md R74). -/
def literalAddr (nnn : BitVec 12) : Word := nnn.setWidth 16

/-- The target of JP V0, NNN: the sum is not masked (43_control.md R179, 90_conflicts.md C7). -/
def State.offsetTarget (s : State) (nnn : BitVec 12) : Word := literalAddr nnn + (s.reg 0).setWidth 16

/-- The unbounded sum of ADD I, Vx (42_memory_index.md R151). -/
def State.indexSum (s : State) (x : RegIdx) : Nat := s.index.toNat + (s.reg x).toNat

/-- The address of glyph `d`: 0x050 + 5 × d (42_memory_index.md R152). -/
def glyphAddr (d : Nat) : Word := BitVec.ofNat 16 (fontBase + 5 * d)

/-- Hundreds, tens and units of a byte (42_memory_index.md R153). -/
def bcdDigits (v : Byte) : List Byte :=
  [BitVec.ofNat 8 (v.toNat / 100), BitVec.ofNat 8 (v.toNat / 10 % 10), BitVec.ofNat 8 (v.toNat % 10)]

/-- DRW's start column, Vx mod 64 (44_framebuffer.md R193). -/
def State.startCol (s : State) (x : RegIdx) : Nat := (s.reg x).toNat % 64

/-- DRW's start row, Vy mod 32 (44_framebuffer.md R193). -/
def State.startRow (s : State) (y : RegIdx) : Nat := (s.reg y).toNat % 32

/-- `fb[r][c]`; off the 64 by 32 grid there is no pixel and the answer is off (10_state.md R31). -/
def Framebuffer.pixel (fb : Framebuffer) (r c : Nat) : Bool :=
  if h : r < 32 ∧ c < 64 then (fb[r]'h.1)[c]'h.2 else false

/-- `fb[r][c] <- not fb[r][c]` on the grid (44_framebuffer.md R192). -/
def Framebuffer.flip (fb : Framebuffer) (r c : Nat) : Framebuffer :=
  if h : r < 32 ∧ c < 64 then fb.set r ((fb[r]'h.1).set c (!fb.pixel r c) h.2) h.1 else fb

/-- Every pixel off (44_framebuffer.md R191). -/
def Framebuffer.blank : Framebuffer := Vector.replicate 32 (Vector.replicate 64 false)

/-- `XorPixel(r, c)`: flip the pixel, and remember whether any flipped so far was on
(44_framebuffer.md R192). -/
def xorPixel (r c : Nat) (acc : Framebuffer × Bool) : Framebuffer × Bool :=
  (Framebuffer.flip acc.1 r c, acc.2 || Framebuffer.pixel acc.1 r c)

/-- Column `k` of one sprite row: clipped, not wrapped; bit 7 leftmost (44_framebuffer.md R193; log 13). -/
def drawBit (b : Byte) (row x0 k : Nat) (acc : Framebuffer × Bool) : Framebuffer × Bool :=
  if 32 ≤ row ∨ 64 ≤ x0 + k then acc
  else if b.getLsbD (7 - k) then xorPixel row (x0 + k) acc
  else acc

/-- The first `n` columns of one sprite row, left to right. -/
def drawBits (b : Byte) (row x0 : Nat) : Nat → Framebuffer × Bool → Framebuffer × Bool
  | 0, acc => acc
  | n + 1, acc => drawBit b row x0 n (drawBits b row x0 n acc)

/-- One sprite row, skipped when its byte lies outside memory (44_framebuffer.md R193). -/
def drawRow (m : Memory) (a row x0 : Nat) (acc : Framebuffer × Bool) : Framebuffer × Bool :=
  if inBounds a then drawBits (m.read a) row x0 8 acc else acc

/-- The first `n` rows of a sprite at memory address `a`, drawn from row `y0`, column `x0`, top to bottom
(44_framebuffer.md R193). -/
def drawRows (m : Memory) (a y0 x0 : Nat) : Nat → Framebuffer × Bool → Framebuffer × Bool
  | 0, acc => acc
  | n + 1, acc => drawRow m (a + n) (y0 + n) x0 (drawRows m a y0 x0 n acc)

end Sys2Proof.Machine
end

