-- ==== Sys2Proof/Machine/Flags.lean ====
section
/-! DEFINITION. Every value VF takes as a flag, and the order of the flag write and the result write
(10_state.md R38, 41_arithmetic.md R120, R121). -/

namespace Sys2Proof.Machine

/-- A flag as the byte VF receives. -/
def flagByte (c : Bool) : Byte := if c then 1 else 0

/-- The 9-bit sum of ADD Vx, Vy (41_arithmetic.md R128). -/
def sum9 (a b : Byte) : BitVec 9 := a.setWidth 9 + b.setWidth 9

/-- The carry of ADD Vx, Vy: the 9-bit sum exceeds 255 (41_arithmetic.md R128). -/
def carryFlag (a b : Byte) : Byte := flagByte (decide (255 < (sum9 a b).toNat))

/-- The not-borrow of `a - b`: 1 when a >= b (41_arithmetic.md R129, R131). -/
def notBorrowFlag (a b : Byte) : Byte := flagByte (decide (b.toNat ≤ a.toNat))

/-- The bit SHR shifts out, bit 0 (41_arithmetic.md R130). -/
def shrFlag (a : Byte) : Byte := a &&& 0x01

/-- The bit SHL shifts out, bit 7 (41_arithmetic.md R132). -/
def shlFlag (a : Byte) : Byte := (a >>> 7) &&& 0x01

/-- The two assignments of SUB, SHR, SUBN and SHL: VF, then Vx. `result` is what the second assigns, as a
function of the registers it reads: those the flag write left, or those before it (41_arithmetic.md R121). -/
def flagThenResult (order : AluFlagAlias) (flag : Byte) (x : RegIdx) (result : State → Byte) (s : State) : State :=
  match order with
  | .sequential => (s.setReg vF flag).setReg x (result (s.setReg vF flag))
  | .snapshot => (s.setReg vF flag).setReg x (result s)

end Sys2Proof.Machine
end

