-- ==== Sys2Proof/Machine/Arith.lean ====
section
/-! DEFINITION. Arithmetic, logic and random instructions (41_arithmetic.md). None writes pc. -/

namespace Sys2Proof.Machine

/-- SUB under either setting of ALU_FLAG_ALIAS (41_arithmetic.md R129). -/
def subWith (order : AluFlagAlias) (x y : RegIdx) (s : State) : State :=
  flagThenResult order (notBorrowFlag (s.reg x) (s.reg y)) x (fun t => t.reg x - t.reg y) s

/-- SUBN under either setting of ALU_FLAG_ALIAS (41_arithmetic.md R131). -/
def subnWith (order : AluFlagAlias) (x y : RegIdx) (s : State) : State :=
  flagThenResult order (notBorrowFlag (s.reg y) (s.reg x)) x (fun t => t.reg y - t.reg x) s

/-- SHR under either setting of ALU_FLAG_ALIAS (41_arithmetic.md R130). -/
def shrWith (order : AluFlagAlias) (x : RegIdx) (s : State) : State :=
  flagThenResult order (shrFlag (s.reg x)) x (fun t => t.reg x >>> 1) s

/-- SHL under either setting of ALU_FLAG_ALIAS (41_arithmetic.md R132). -/
def shlWith (order : AluFlagAlias) (x : RegIdx) (s : State) : State :=
  flagThenResult order (shlFlag (s.reg x)) x (fun t => t.reg x <<< 1) s

/-- LD Vx, KK (41_arithmetic.md R122). -/
def execLdImm (x : RegIdx) (kk : Byte) (s : State) : Result := .next (s.setReg x kk)

/-- ADD Vx, KK: wraps, no flag (41_arithmetic.md R123). -/
def execAddImm (x : RegIdx) (kk : Byte) (s : State) : Result := .next (s.setReg x (s.reg x + kk))

/-- LD Vx, Vy (41_arithmetic.md R124). -/
def execLdReg (x y : RegIdx) (s : State) : Result := .next (s.setReg x (s.reg y))

/-- OR Vx, Vy; VF is not cleared (41_arithmetic.md R125). -/
def execOr (x y : RegIdx) (s : State) : Result := .next (s.setReg x (s.reg x ||| s.reg y))

/-- AND Vx, Vy; VF is not cleared (41_arithmetic.md R126). -/
def execAnd (x y : RegIdx) (s : State) : Result := .next (s.setReg x (s.reg x &&& s.reg y))

/-- XOR Vx, Vy; VF is not cleared (41_arithmetic.md R127). -/
def execXor (x y : RegIdx) (s : State) : Result := .next (s.setReg x (s.reg x ^^^ s.reg y))

/-- ADD Vx, Vy: the 9-bit sum, then VF, then Vx (41_arithmetic.md R128). -/
def execAddReg (x y : RegIdx) (s : State) : Result :=
  .next ((s.setReg vF (carryFlag (s.reg x) (s.reg y))).setReg x ((sum9 (s.reg x) (s.reg y)).setWidth 8))

/-- SUB Vx, Vy, under the block's ALU_FLAG_ALIAS (41_arithmetic.md R129; log 6). -/
def execSub (x y : RegIdx) (s : State) : Result := .next (subWith s.policies.aluFlagAlias x y s)

/-- SHR Vx, under the block's ALU_FLAG_ALIAS (41_arithmetic.md R130; log 6). -/
def execShr (x : RegIdx) (s : State) : Result := .next (shrWith s.policies.aluFlagAlias x s)

/-- SUBN Vx, Vy, under the block's ALU_FLAG_ALIAS (41_arithmetic.md R131; log 6). -/
def execSubn (x y : RegIdx) (s : State) : Result := .next (subnWith s.policies.aluFlagAlias x y s)

/-- SHL Vx, under the block's ALU_FLAG_ALIAS (41_arithmetic.md R132; log 6). -/
def execShl (x : RegIdx) (s : State) : Result := .next (shlWith s.policies.aluFlagAlias x s)

/-- RND Vx, KK: the drawn byte is a free value (41_arithmetic.md R133; log 3). -/
def execRnd (x : RegIdx) (kk : Byte) (s : State) : Result :=
  .next (s.advanceDraw.setReg x (s.drawnByte &&& kk))

end Sys2Proof.Machine
end

