-- ==== Sys2Proof/Machine/Control.lean ====
section
/-! DEFINITION. Control transfer (43_control.md). Every handler finds pc already pre-incremented
(10_state.md R24). -/

namespace Sys2Proof.Machine

/-- CALL under either setting of CALL_FULL_POLICY (43_control.md R174). -/
def callWith (whenFull : CallFullPolicy) (nnn : BitVec 12) (s : State) : State :=
  if s.stackFull then
    match whenFull with
    | .nop => s
    | .jump => s.setPc (literalAddr nnn)
  else (s.push s.pc).setPc (literalAddr nnn)

/-- RET: with the stack empty, a no-op (43_control.md R172). -/
def execRet (s : State) : Result := .next (if s.stackEmpty then s else s.pop.setPc s.top)

/-- JP NNN (43_control.md R173). -/
def execJp (nnn : BitVec 12) (s : State) : Result := .next (s.setPc (literalAddr nnn))

/-- CALL NNN, under the block's CALL_FULL_POLICY (43_control.md R174; log 5). -/
def execCall (nnn : BitVec 12) (s : State) : Result := .next (callWith s.policies.callFull nnn s)

/-- SE Vx, KK (43_control.md R175). -/
def execSeImm (x : RegIdx) (kk : Byte) (s : State) : Result := .next (s.skipIf (s.reg x == kk))

/-- SNE Vx, KK (43_control.md R176). -/
def execSneImm (x : RegIdx) (kk : Byte) (s : State) : Result := .next (s.skipIf (s.reg x != kk))

/-- SE Vx, Vy (43_control.md R177). -/
def execSeReg (x y : RegIdx) (s : State) : Result := .next (s.skipIf (s.reg x == s.reg y))

/-- SNE Vx, Vy (43_control.md R178). -/
def execSneReg (x y : RegIdx) (s : State) : Result := .next (s.skipIf (s.reg x != s.reg y))

/-- JP V0, NNN: the sum is not masked (43_control.md R179; log 11). -/
def execJpV0 (nnn : BitVec 12) (s : State) : Result := .next (s.setPc (s.offsetTarget nnn))

end Sys2Proof.Machine
end

