-- ==== Sys2Proof/Machine/IndexMem.lean ====
section
/-! DEFINITION. Index register and memory instructions (42_memory_index.md). None writes pc, and no memory
access changes I. -/

namespace Sys2Proof.Machine

/-- LD I, NNN (42_memory_index.md R150). -/
def execLdI (nnn : BitVec 12) (s : State) : Result := .next (s.setIndex (literalAddr nnn))

/-- ADD I, Vx: dropped as a whole when the sum leaves memory (42_memory_index.md R151; log 15). -/
def execAddI (x : RegIdx) (s : State) : Result :=
  .next (if inBounds (s.indexSum x) then s.setIndex (BitVec.ofNat 16 (s.indexSum x)) else s)

/-- LD F, Vx: the whole value is tested, not its low nibble (42_memory_index.md R152). -/
def execLdF (x : RegIdx) (s : State) : Result :=
  .next (if (s.reg x).toNat < 16 then s.setIndex (glyphAddr (s.reg x).toNat) else s)

/-- LD B, Vx: three digits, each out-of-bounds one skipped alone (42_memory_index.md R153; log 14). -/
def execLdB (x : RegIdx) (s : State) : Result := .next (s.storeBytes (s.effAddr 0) (bcdDigits (s.reg x)))

/-- LD [I], Vx: V0 to VX, each out-of-bounds byte skipped alone (42_memory_index.md R154; log 15). -/
def execLdMemVx (x : RegIdx) (s : State) : Result :=
  .next (s.storeBytes (s.effAddr 0) (s.firstRegs (x.val + 1)))

/-- LD Vx, [I]: V0 to VX, each out-of-bounds register kept (42_memory_index.md R155; log 15). -/
def execLdVxMem (x : RegIdx) (s : State) : Result := .next (State.loadRegs (s.effAddr 0) (x.val + 1) s)

end Sys2Proof.Machine
end

