-- ==== Sys2Proof/Machine/KeyTimer.lean ====
section
/-! DEFINITION. Keypad and timer instructions (45_timer_input.md). The timer stage runs after each of them,
in the same step (40_cycle.md R106). -/

namespace Sys2Proof.Machine

/-- SKP Vx: a value of 16 or more never skips (45_timer_input.md R210). -/
def execSkp (x : RegIdx) (s : State) : Result :=
  .next (s.skipIf (decide ((s.reg x).toNat < 16) && s.keyPressed (s.reg x).toNat))

/-- SKNP Vx: a value of 16 or more does not skip either (45_timer_input.md R211, 90_conflicts.md C3; log 17). -/
def execSknp (x : RegIdx) (s : State) : Result :=
  .next (s.skipIf (decide ((s.reg x).toNat < 16) && !s.keyPressed (s.reg x).toNat))

/-- LD Vx, DT: the value before this step's decrement (45_timer_input.md R212). -/
def execLdVxDt (x : RegIdx) (s : State) : Result := .next (s.setReg x s.dt)

/-- LD Vx, K: the least pressed key, or pc back to this instruction (45_timer_input.md R213; log 18). -/
def execLdVxK (x : RegIdx) (s : State) : Result :=
  .next (match s.leastKey with
    | some k => s.setReg x (BitVec.ofNat 8 k)
    | none => s.retreatPc)

/-- LD DT, Vx (45_timer_input.md R214). -/
def execLdDtVx (x : RegIdx) (s : State) : Result := .next (s.setDt (s.reg x))

/-- LD ST, Vx (45_timer_input.md R215). -/
def execLdStVx (x : RegIdx) (s : State) : Result := .next (s.setSt (s.reg x))

end Sys2Proof.Machine
end

