-- ==== Sys2Proof/Machine/Nop.lean ====
section
/-! DEFINITION. The no-op (40_cycle.md section 3). -/

namespace Sys2Proof.Machine

/-- NOP: the handler writes no state (40_cycle.md R107). -/
def execNop (_w : Word) (s : State) : Result := .next s

end Sys2Proof.Machine
end

