-- ==== Sys2Proof/Machine/Screen.lean ====
section
/-! DEFINITION. Framebuffer instructions (44_framebuffer.md). Neither writes pc. -/

namespace Sys2Proof.Machine

/-- What a draw makes of the framebuffer, and whether it collided: N rows from I, at (Vy mod 32, Vx mod 64)
(44_framebuffer.md R193). -/
def drawSprite (x y : RegIdx) (n : BitVec 4) (s : State) : Framebuffer × Bool :=
  drawRows s.mem (s.effAddr 0) (s.startRow y) (s.startCol x) n.toNat (s.fb, false)

/-- CLS (44_framebuffer.md R191). -/
def execCls (s : State) : Result := .next (s.setFb Framebuffer.blank)

/-- DRW Vx, Vy, N: coordinates first, VF last (44_framebuffer.md R193). -/
def execDrw (x y : RegIdx) (n : BitVec 4) (s : State) : Result :=
  .next ((s.setFb (drawSprite x y n s).1).setReg vF (flagByte (drawSprite x y n s).2))

end Sys2Proof.Machine
end

