-- ==== Sys2Proof/Machine/Ports.lean ====
section
/-! DEFINITION. The host's ports (60_exceptions.md R240) other than `cycle` and `rnd`: what the host reads
between steps, how it overwrites the keypad, and the program load before the first step. -/

namespace Sys2Proof.Machine

/-- `fb_read`, element k = r × 64 + c: all bits set when the pixel is on (60_exceptions.md R243; log 19). -/
def State.fbRead (s : State) (k : Nat) : BitVec 32 :=
  if Framebuffer.pixel s.fb (k / 64) (k % 64) then 0xFFFFFFFF else 0x00000000

/-- `sound`: the value of ST (60_exceptions.md R244). -/
def State.sound (s : State) : Byte := s.st

/-- The host's move before a step: its next pending overwrite of the keypad, if any
(60_exceptions.md R242, R247; log 1). -/
def State.hostKeys (s : State) : State :=
  match s.pendingKeys with
  | [] => s
  | k :: rest => { s with keys := k, pendingKeys := rest }

/-- `load`: the image's first 3584 bytes to 0x200 and up, verbatim; nothing else changes
(70_reset_and_hazards.md R262, R263). -/
def State.loadProgram (image : List Byte) (s : State) : State := s.storeBytes programStart (image.take maxImage)

/-- Construction with any parameters and with the keypad as the host has it, which construction does not reset
(70_reset_and_hazards.md R260, 00_scope.md R10): zeroes, pc = 0x200, the 80 bytes of FONT at 0x050. -/
def State.construct (p : Params) (keys : Keypad) : State :=
  ({ State.reset with keys := keys, policies := p.policies }).storeBytes fontBase p.font.toList

/-- The boot sequence up to the first step: construct, load one image (70_reset_and_hazards.md R265; log 20). -/
def State.boot (p : Params) (keys : Keypad) (image : List Byte) : State :=
  (State.construct p keys).loadProgram image

end Sys2Proof.Machine
end

