-- ==== Sys2Proof/Machine/Cycle.lean ====
section
/-! DEFINITION. The step of 40_cycle.md R100: fetch, pre-increment, decode, execute, timer stage. -/

namespace Sys2Proof.Machine

/-- Both bytes of the fetch lie in memory: pc <= 0x0FFE (40_cycle.md R101). -/
def State.fetchInBounds (s : State) : Bool := decide (s.pc.toNat + 1 < memorySize)

/-- The instruction word at pc (40_cycle.md R101, 20_memory.md R55). -/
def State.fetch (s : State) : Word := s.mem.fetchWord s.pc.toNat

/-- `Step(key, rnd)` under either setting of FETCH_OOB_POLICY (40_cycle.md R100, R102). -/
def cycleWith (whenOut : FetchOobPolicy) (s : State) : Result :=
  if s.fetchInBounds then mapNext State.tickTimers (exec (decode s.fetch) s.advancePc)
  else
    match whenOut with
    | .nop => .next s.advancePc.tickTimers
    | .fault => .fault (.fetchOutOfBounds s.pc)

/-- `cycle` (60_exceptions.md R241), under the block's FETCH_OOB_POLICY (log 4). -/
def cycle (s : State) : Result := cycleWith s.policies.fetchOob s

/-- An instruction word laid where the next fetch reads; nothing where no fetch reads it (pc > 0x0FFE). -/
def State.placeWord (w : Word) (s : State) : State :=
  if s.fetchInBounds then s.storeBytes s.pc.toNat (bytesOfWord w) else s

/-- A run under the host's keypad writes: one step per snapshot, each step seeing its own
(70_reset_and_hazards.md R274). -/
def runKeys : List Keypad → State → Result
  | [], s => .next s
  | k :: ks, s =>
    match cycle (s.setKeys k) with
    | .next t => runKeys ks t
    | .fault r => .fault r
    | .refused r => .refused r

end Sys2Proof.Machine
end

