-- ==== Sys2Proof/Machine/Step.lean ====
section
/-! DEFINITION. One step of the machine: the host's pending keypad write, then one `cycle()`
(00_scope.md R8, 40_cycle.md R100). -/

namespace Sys2Proof.Machine

/-- The host's move, then the block's (log 1). -/
def step (s : State) : Host.Outcome State Fault Refusal := cycle s.hostKeys

/-- `s` with the instruction word `w` stored where the next step fetches; bits at `nbits` and above are 0.
It stands for the program load (log 20). -/
def State.withFetchWord (s : State) (nbits w : Nat) : State := s.placeWord (BitVec.ofNat 16 (w % 2 ^ nbits))

end Sys2Proof.Machine
end

