-- ==== Sys2Proof/Safety.lean ====
section
/-! DEFINITION. The terms claims are made in: the machine's invariant, what each instruction may read and
write (10_state.md R23, R27, R28, R30, R31, R32), the addresses a store writes, and the pixels a sprite covers.
The model itself reads none of it. -/

namespace Sys2Proof.Machine

/-- The invariant every step keeps: memory in its canonical form, I within memory (10_state.md R27). -/
abbrev State.Inv (s : State) : Prop := Memory.wf s.mem ∧ s.index.toNat < memorySize

/-- The words that decode to `f` of themselves are exactly those with `w &&& mask = pattern`: a row of
30_encoding.md R75 with its fields. -/
def DecodesAs (mask pattern : Word) (f : Word → Instr) : Prop := ∀ w : Word, decode w = f w ↔ w &&& mask = pattern

/-- The general registers an instruction may write (10_state.md R23). -/
def writesReg (i : Instr) (z : RegIdx) : Bool :=
  match i with
  | .ldImm x _ | .addImm x _ | .ldReg x _ | .orReg x _ | .andReg x _ | .xorReg x _ => z == x
  | .rnd x _ | .ldVxDt x | .ldVxK x => z == x
  | .addReg x _ | .sub x _ | .shr x | .subn x _ | .shl x => z == x || z == vF
  | .drw _ _ _ => z == vF
  | .ldVxMem x => decide (z ≤ x)
  | .cls | .ret | .jp _ | .call _ | .seImm _ _ | .sneImm _ _ | .seReg _ _ | .sneReg _ _ | .ldI _ | .jpV0 _ => false
  | .skp _ | .sknp _ | .ldDtVx _ | .ldStVx _ | .addI _ | .ldF _ | .ldB _ | .ldMemVx _ | .nop _ => false

/-- The instructions that may write I (10_state.md R27). -/
def writesIndex (i : Instr) : Bool :=
  match i with
  | .ldI _ | .addI _ | .ldF _ => true
  | .cls | .ret | .jp _ | .call _ | .seImm _ _ | .sneImm _ _ | .seReg _ _ | .ldImm _ _ | .addImm _ _ => false
  | .ldReg _ _ | .orReg _ _ | .andReg _ _ | .xorReg _ _ | .addReg _ _ | .sub _ _ | .shr _ | .subn _ _ => false
  | .shl _ | .sneReg _ _ | .jpV0 _ | .rnd _ _ | .drw _ _ _ | .skp _ | .sknp _ | .ldVxDt _ | .ldVxK _ => false
  | .ldDtVx _ | .ldStVx _ | .ldB _ | .ldMemVx _ | .ldVxMem _ | .nop _ => false

/-- The instructions whose handler may write pc (10_state.md R24). -/
def writesPc (i : Instr) : Bool :=
  match i with
  | .ret | .jp _ | .call _ | .seImm _ _ | .sneImm _ _ | .seReg _ _ | .sneReg _ _ | .jpV0 _ => true
  | .skp _ | .sknp _ | .ldVxK _ => true
  | .cls | .ldImm _ _ | .addImm _ _ | .ldReg _ _ | .orReg _ _ | .andReg _ _ | .xorReg _ _ | .addReg _ _ => false
  | .sub _ _ | .shr _ | .subn _ _ | .shl _ | .ldI _ | .rnd _ _ | .drw _ _ _ | .ldVxDt _ | .ldDtVx _ => false
  | .ldStVx _ | .addI _ | .ldF _ | .ldB _ | .ldMemVx _ | .ldVxMem _ | .nop _ => false

/-- The instructions that may write the call stack or SP (10_state.md R28). -/
def writesStack (i : Instr) : Bool :=
  match i with
  | .ret | .call _ => true
  | .cls | .jp _ | .seImm _ _ | .sneImm _ _ | .seReg _ _ | .ldImm _ _ | .addImm _ _ | .ldReg _ _ => false
  | .orReg _ _ | .andReg _ _ | .xorReg _ _ | .addReg _ _ | .sub _ _ | .shr _ | .subn _ _ | .shl _ => false
  | .sneReg _ _ | .ldI _ | .jpV0 _ | .rnd _ _ | .drw _ _ _ | .skp _ | .sknp _ | .ldVxDt _ | .ldVxK _ => false
  | .ldDtVx _ | .ldStVx _ | .addI _ | .ldF _ | .ldB _ | .ldMemVx _ | .ldVxMem _ | .nop _ => false

/-- The instructions that may write the framebuffer (10_state.md R31). -/
def writesFb (i : Instr) : Bool :=
  match i with
  | .cls | .drw _ _ _ => true
  | .ret | .jp _ | .call _ | .seImm _ _ | .sneImm _ _ | .seReg _ _ | .ldImm _ _ | .addImm _ _ | .ldReg _ _ => false
  | .orReg _ _ | .andReg _ _ | .xorReg _ _ | .addReg _ _ | .sub _ _ | .shr _ | .subn _ _ | .shl _ => false
  | .sneReg _ _ | .ldI _ | .jpV0 _ | .rnd _ _ | .skp _ | .sknp _ | .ldVxDt _ | .ldVxK _ => false
  | .ldDtVx _ | .ldStVx _ | .addI _ | .ldF _ | .ldB _ | .ldMemVx _ | .ldVxMem _ | .nop _ => false

/-- LD DT, Vx, the one instruction whose handler writes DT (10_state.md R30). -/
def writesDt (i : Instr) : Bool :=
  match i with
  | .ldDtVx _ => true
  | .cls | .ret | .jp _ | .call _ | .seImm _ _ | .sneImm _ _ | .seReg _ _ | .ldImm _ _ | .addImm _ _ => false
  | .ldReg _ _ | .orReg _ _ | .andReg _ _ | .xorReg _ _ | .addReg _ _ | .sub _ _ | .shr _ | .subn _ _ => false
  | .shl _ | .sneReg _ _ | .ldI _ | .jpV0 _ | .rnd _ _ | .drw _ _ _ | .skp _ | .sknp _ | .ldVxDt _ => false
  | .ldVxK _ | .ldStVx _ | .addI _ | .ldF _ | .ldB _ | .ldMemVx _ | .ldVxMem _ | .nop _ => false

/-- LD ST, Vx, the one instruction whose handler writes ST (10_state.md R30). -/
def writesSt (i : Instr) : Bool :=
  match i with
  | .ldStVx _ => true
  | .cls | .ret | .jp _ | .call _ | .seImm _ _ | .sneImm _ _ | .seReg _ _ | .ldImm _ _ | .addImm _ _ => false
  | .ldReg _ _ | .orReg _ _ | .andReg _ _ | .xorReg _ _ | .addReg _ _ | .sub _ _ | .shr _ | .subn _ _ => false
  | .shl _ | .sneReg _ _ | .ldI _ | .jpV0 _ | .rnd _ _ | .drw _ _ _ | .skp _ | .sknp _ | .ldVxDt _ => false
  | .ldVxK _ | .ldDtVx _ | .addI _ | .ldF _ | .ldB _ | .ldMemVx _ | .ldVxMem _ | .nop _ => false

/-- RND, the one instruction that consumes a drawn byte (60_exceptions.md R245). -/
def drawsByte (i : Instr) : Bool :=
  match i with
  | .rnd _ _ => true
  | .cls | .ret | .jp _ | .call _ | .seImm _ _ | .sneImm _ _ | .seReg _ _ | .ldImm _ _ | .addImm _ _ => false
  | .ldReg _ _ | .orReg _ _ | .andReg _ _ | .xorReg _ _ | .addReg _ _ | .sub _ _ | .shr _ | .subn _ _ => false
  | .shl _ | .sneReg _ _ | .ldI _ | .jpV0 _ | .drw _ _ _ | .skp _ | .sknp _ | .ldVxDt _ | .ldVxK _ => false
  | .ldDtVx _ | .ldStVx _ | .addI _ | .ldF _ | .ldB _ | .ldMemVx _ | .ldVxMem _ | .nop _ => false

/-- The instructions that read the keypad (10_state.md R32). -/
def readsKeys (i : Instr) : Bool :=
  match i with
  | .skp _ | .sknp _ | .ldVxK _ => true
  | .cls | .ret | .jp _ | .call _ | .seImm _ _ | .sneImm _ _ | .seReg _ _ | .ldImm _ _ | .addImm _ _ => false
  | .ldReg _ _ | .orReg _ _ | .andReg _ _ | .xorReg _ _ | .addReg _ _ | .sub _ _ | .shr _ | .subn _ _ => false
  | .shl _ | .sneReg _ _ | .ldI _ | .jpV0 _ | .rnd _ _ | .drw _ _ _ | .ldVxDt _ => false
  | .ldDtVx _ | .ldStVx _ | .addI _ | .ldF _ | .ldB _ | .ldMemVx _ | .ldVxMem _ | .nop _ => false

/-- The instructions whose effect at `s` depends on a policy of the block: ALU_FLAG_ALIAS where VF is an operand of SUB
or SUBN or is shifted (41_arithmetic.md R121), CALL_FULL_POLICY with the stack full (43_control.md R174). -/
def readsPolicy (i : Instr) (s : State) : Bool :=
  match i with
  | .sub x y | .subn x y => x == vF || y == vF
  | .shr x | .shl x => x == vF
  | .call _ => s.stackFull
  | .cls | .ret | .jp _ | .seImm _ _ | .sneImm _ _ | .seReg _ _ | .ldImm _ _ | .addImm _ _ | .ldReg _ _ => false
  | .orReg _ _ | .andReg _ _ | .xorReg _ _ | .addReg _ _ | .sneReg _ _ | .ldI _ | .jpV0 _ | .rnd _ _ => false
  | .drw _ _ _ | .skp _ | .sknp _ | .ldVxDt _ | .ldVxK _ | .ldDtVx _ | .ldStVx _ | .addI _ | .ldF _ => false
  | .ldB _ | .ldMemVx _ | .ldVxMem _ | .nop _ => false

/-- The addresses an instruction's stores are aimed at, computed as its meaning computes them (an address out
of bounds is then skipped): three from I for LD B, V0 to VX from I for LD [I] (42_memory_index.md R153, R154). -/
def storeAddrs (i : Instr) (s : State) : List Nat :=
  match i with
  | .ldB _ => [s.effAddr 0, s.effAddr 1, s.effAddr 2]
  | .ldMemVx x => (List.range (x.val + 1)).map s.effAddr
  | .cls | .ret | .jp _ | .call _ | .seImm _ _ | .sneImm _ _ | .seReg _ _ | .ldImm _ _ | .addImm _ _ => []
  | .ldReg _ _ | .orReg _ _ | .andReg _ _ | .xorReg _ _ | .addReg _ _ | .sub _ _ | .shr _ | .subn _ _ => []
  | .shl _ | .sneReg _ _ | .ldI _ | .jpV0 _ | .rnd _ _ | .drw _ _ _ | .skp _ | .sknp _ | .ldVxDt _ => []
  | .ldVxK _ | .ldDtVx _ | .ldStVx _ | .addI _ | .ldF _ | .ldVxMem _ | .nop _ => []

/-- Whether DRW Vx, Vy, N at `s` has a 1 bit on pixel (r, c): the pixel lies on the grid and under the
unwrapped sprite, its row's byte lies in memory, and bit 7 - (column within the sprite) of that byte is 1
(44_framebuffer.md R193). -/
def spriteCovers (s : State) (x y : RegIdx) (n : BitVec 4) (r c : Nat) : Bool :=
  decide (r < 32) && decide (c < 64) &&
  decide (s.startRow y ≤ r) && decide (r < s.startRow y + n.toNat) &&
  decide (s.startCol x ≤ c) && decide (c < s.startCol x + 8) &&
  decide (s.effAddr (r - s.startRow y) < memorySize) &&
  (s.mem.read (s.effAddr (r - s.startRow y))).getLsbD (7 - (c - s.startCol x))

end Sys2Proof.Machine
end

