-- ==== Sys2Proof/Certificates/Slice0/Obligations.lean ====
section
/-! DEFINITION. The statements for the provers. Each docstring names the rule of spec/ it formalises; where a
statement rests on a choice the spec marks as its own ([decision: D n], [derived], [from general knowledge]) the
docstring says so and names the log entry. `t = { s with f := t.f }` says that t is s but for the field f. -/

open Sys2Proof Sys2Proof.Machine

/-! ### Encoding (30_encoding.md) -/

/-- Words of every family, written out from the encodings of 30_encoding.md R75, decode to what they stand for:
CLS by its alias 0x0120, LD Vx,KK, SHR with its ignored Y field, LD I, LD B, JP V0, CALL, DRW, SKNP by its alias
0xE1F1, LD Vx,K, and the unrecognised 0x0123. Opcode values are the spec's own choice D15 (log 8). -/
def Obligations.SpecWordsDecode : Prop :=
  decode 0x0120 = .cls ∧ decode 0x0ABE = .ret ∧ decode 0x6A7B = .ldImm 10 0x7B ∧ decode 0x8236 = .shr 2 ∧
  decode 0x8015 = .sub 0 1 ∧ decode 0xA300 = .ldI 0x300 ∧ decode 0xFA33 = .ldB 10 ∧ decode 0xBFF8 = .jpV0 0xFF8 ∧
  decode 0x2210 = .call 0x210 ∧ decode 0xD125 = .drw 1 2 5 ∧ decode 0xE1F1 = .sknp 1 ∧ decode 0xF20A = .ldVxK 2 ∧
  decode 0x0123 = .nop 0x0123

/-- The operand fields X = w[11:8], Y = w[7:4], N = w[3:0], KK = w[7:0], NNN = w[11:0] of every word
(30_encoding.md R72; all positions but NNN's from general knowledge, D15, log 8). -/
def Obligations.OperandFieldPositions : Prop :=
  ∀ w : Word, (fieldX w).val = w.toNat / 256 % 16 ∧ (fieldY w).val = w.toNat / 16 % 16 ∧
    (fieldN w).toNat = w.toNat % 16 ∧ (fieldKK w).toNat = w.toNat % 256 ∧ (fieldNNN w).toNat = w.toNat % 4096

/-- Decode and encode agree: the bytes of every well-formed instruction, at every value of every operand, decode
back to it, whatever bytes follow (30_encoding.md R70, R73, R75; field positions D15, log 8). -/
def Obligations.DecodeOfEncodeIsIdentity : Prop :=
  ∀ (i : Instr) (rest : List Byte), i.wellFormed = true → decodeBytes (encodeBytes i ++ rest) = .ok (i, rest)

/-- The other direction: encoding what a word decodes to gives the word back on every bit that is compared or
read (30_encoding.md R73, R76; the ignored bits are the canonical ones of R81; D15, log 8; log 23). -/
def Obligations.EncodeOfDecodeKeepsUsedBits : Prop :=
  ∀ w : Word, encode (decode w) &&& usedBits (decode w) = w &&& usedBits (decode w)

/-- Bits the dispatcher does not compare and the handler does not read do not matter: two words that agree on the
used bits decode alike (30_encoding.md R76; derived there; log 23). -/
def Obligations.IgnoredBitsDoNotMatter : Prop :=
  ∀ w v : Word, w &&& usedBits (decode w) = v &&& usedBits (decode w) → decode v = decode w

/-- The two-level dispatcher is the flat opcode map: for every word and every row of 30_encoding.md R75, the word
matches the row exactly when it decodes to an instruction of that row, so at most one row matches, and it decodes to
NOP exactly when none does (R71, R75, R78; opcode values D15, log 8). -/
def Obligations.DispatcherAgreesWithOpcodeMap : Prop :=
  ∀ w : Word,
    (∀ row ∈ opcodeMap, w &&& row.mask = row.pattern ↔ (decode w).mnemonic = row.mnemonic) ∧
    (∀ r ∈ opcodeMap, ∀ q ∈ opcodeMap, w &&& r.mask = r.pattern → w &&& q.mask = q.pattern → r = q) ∧
    ((decode w).mnemonic = "NOP" ↔ ∀ row ∈ opcodeMap, w &&& row.mask ≠ row.pattern)

/-- Every word decodes to a well-formed instruction, and to NOP exactly when 30_encoding.md R77 lists it as
unrecognised, keeping the word (derived there from R75; log 8). -/
def Obligations.DecodeIsTotalAndNopsTheUnrecognised : Prop :=
  ∀ w : Word, (decode w).wellFormed = true ∧ (decode w = .nop w ↔ unrecognised w = true)

/-! ### The step (40_cycle.md) -/

/-- A step runs the decoded instruction: when both bytes at pc lie in memory and decode to i, the step is the
handler of i on the state after the host's keypad write with pc moved past the word, then the timer stage
(40_cycle.md R100, R101, R103 to R106; pc modulo 2^16 is D2, log 9; the host's move is log 1). -/
def Obligations.StepRunsDecodedInstruction : Prop :=
  ∀ (s h : State) (i : Instr), h = s.hostKeys → h.pc.toNat ≤ 0x0FFE →
    decodeBytes [h.mem.read h.pc.toNat, h.mem.read (h.pc.toNat + 1)] = .ok (i, []) → i.wellFormed = true →
    step s = mapNext State.tickTimers (exec i { h with pc := h.pc + 2 })

/-- A fetch out of bounds, at the state after the host's pending keypad write (log 1): under FETCH_OOB_POLICY = nop no
handler runs, the step advances pc by 2 modulo 2^16, counts the timers down and changes nothing else of that state;
under fault the step raises the fault with pc. A fetch in bounds does not depend on the policy (40_cycle.md R102,
60_exceptions.md R233; the spec's own choice D3, log 4). -/
def Obligations.FetchOutOfBoundsByPolicy : Prop :=
  (∀ s h : State, h = s.hostKeys → ¬ h.pc.toNat ≤ 0x0FFE → h.policies.fetchOob = .nop → ∃ t, step s = .next t ∧
    t.pc = h.pc + 2 ∧ t.dt.toNat = h.dt.toNat - 1 ∧ t.st.toNat = h.st.toNat - 1 ∧
    t = { h with pc := t.pc, dt := t.dt, st := t.st }) ∧
  (∀ s h : State, h = s.hostKeys → ¬ h.pc.toNat ≤ 0x0FFE → h.policies.fetchOob = .fault →
    step s = .fault (.fetchOutOfBounds h.pc)) ∧
  (∀ s : State, s.pc.toNat ≤ 0x0FFE → cycleWith .fault s = cycleWith .nop s)

/-- No instruction fails, and no step does: a step answers a next state from every state, whatever memory holds, but
for the one model-level fault, a fetch out of bounds under FETCH_OOB_POLICY = fault (40_cycle.md R108, R110,
60_exceptions.md R230, R233; at a pc out of fetch range by the spec's own choice D3, log 4). -/
def Obligations.StepAlwaysAnswersANextState : Prop :=
  (∀ (i : Instr) (s : State), ∃ t, exec i s = .next t) ∧
  (∀ s : State, s.policies.fetchOob = .nop ∨ s.pc.toNat ≤ 0x0FFE → ∃ t, step s = .next t) ∧
  ∀ s : State, (∃ t, step s = .next t) ∨
    (step s = .fault (.fetchOutOfBounds s.pc) ∧ s.policies.fetchOob = .fault ∧ 0x0FFE < s.pc.toNat)

/-- The timer stage of every step, after the handler, or after the skipped execute stage of a fetch out of bounds under
FETCH_OOB_POLICY = nop: each timer is one less, floor at zero, and nothing else changes (60_exceptions.md R238,
40_cycle.md R106; what stands before the timer stage out of fetch range is the spec's own choice D3, log 4; `step`
is `cycle` after the host's keypad write, log 1). -/
def Obligations.TimersCountDownOncePerStep : Prop :=
  ∀ s : State, s.policies.fetchOob = .nop ∨ s.pc.toNat ≤ 0x0FFE → ∃ u t,
    (if s.pc.toNat ≤ 0x0FFE then exec (decode s.fetch) s.advancePc else .next s.advancePc) = .next u ∧
    cycle s = .next t ∧ t.dt.toNat = u.dt.toNat - 1 ∧ t.st.toNat = u.st.toNat - 1 ∧
    t = { u with dt := t.dt, st := t.st }

/-- The keypad sequence a step list sees: running the machine with the host's writes pending is running one cycle
per snapshot, each seeing its own (70_reset_and_hazards.md R274, 20_memory.md R60; that the pending writes stand in
State is the model's choice, log 1). -/
def Obligations.PendingKeysRunIsKeypadSequenceRun : Prop :=
  ∀ (ks : List Keypad) (s : State),
    Host.Core.run Sys2Proof.core ks.length { s with pendingKeys := ks } = runKeys ks { s with pendingKeys := [] }

/-- A store is seen by the next fetch of its address: after LD [I], VX with X at least 1, any state with that memory
and pc = I fetches the word V0 V1 (20_memory.md R62; derived there; big-endian by R55). -/
def Obligations.StoredWordIsFetchedNext : Prop :=
  ∀ (x : RegIdx) (s t u : State), 1 ≤ x.val → exec (.ldMemVx x) s = .next t → u.mem = t.mem →
    u.pc = s.index → u.pc.toNat ≤ 0x0FFE → u.fetch.toNat = 256 * (s.reg 0).toNat + (s.reg 1).toNat

/-! ### Invariants and memory -/

/-- Every step keeps the invariant: memory in canonical form, and I within memory (10_state.md R27, derived there;
the canonical form is the model's, log 21). -/
def Obligations.StepKeepsMemoryFormAndIndexBound : Prop := ∀ s t : State, s.Inv → step s = .next t → t.Inv

/-- The state after construction with any parameters and keypad, and after any program load, meets the invariant
(70_reset_and_hazards.md R260, R262, R265; log 20, log 21, log 24). -/
def Obligations.BootMeetsMemoryFormAndIndexBound : Prop :=
  State.reset.Inv ∧ ∀ (p : Params) (keys : Keypad),
    (State.construct p keys).Inv ∧ ∀ image : List Byte, (State.boot p keys image).Inv

/-- Equal memories are equal data: two memories in canonical form that read alike at every address of the space are
the same list (20_memory.md R50; the form is the model's, log 21). -/
def Obligations.CanonicalMemoriesReadingAlikeAreEqual : Prop :=
  ∀ m n : Memory, m.wf → n.wf → (∀ a, a < 4096 → m.read a = n.read a) → m = n

/-- State.reset, component by component: it is construction with every parameter at the spec's default and no key
pressed (70_reset_and_hazards.md R260; the 80 default FONT bytes are the spec's from general knowledge, D13, log 7;
the keypad is log 2, where the parameters stand is log 24). -/
def Obligations.ResetStateByComponent : Prop :=
  State.reset = State.construct params (Vector.replicate 16 false) ∧
  (∀ z, State.reset.reg z = 0x00) ∧ State.reset.index = 0x0000 ∧ State.reset.pc = 0x0200 ∧
  (∀ k : Fin 16, State.reset.stack[k] = 0x0000) ∧ State.reset.sp = 0 ∧ State.reset.dt = 0x00 ∧
  State.reset.st = 0x00 ∧ (∀ r c, State.reset.fb.pixel r c = false) ∧
  font.length = 80 ∧
  ∀ a, State.reset.mem.read a = if 0x050 ≤ a ∧ a < 0x0A0 then font.getD (a - 0x050) 0x00 else 0x00

/-- The program load: the image's first 3584 bytes to 0x200 and up, verbatim, the rest cut off; nothing else
changes (70_reset_and_hazards.md R262, R263). -/
def Obligations.ProgramLoadCopiesAtMostTheProgramSpace : Prop :=
  ∀ (image : List Byte) (s : State),
    s.loadProgram image = { s with mem := (s.loadProgram image).mem } ∧
    (∀ j, j < min image.length 3584 → (s.loadProgram image).mem.read (0x200 + j) = image.getD j 0x00) ∧
    (∀ a, a < 0x200 ∨ 0x200 + min image.length 3584 ≤ a → (s.loadProgram image).mem.read a = s.mem.read a) ∧
    s.loadProgram (image.take 3584) = s.loadProgram image

/-- The framebuffer read port: element r × 64 + c is all bits set exactly when the pixel is on, and zero otherwise
(60_exceptions.md R243; a boolean per pixel is the spec's own choice D21, log 19). -/
def Obligations.FramebufferPortShowsEachPixel : Prop :=
  ∀ (s : State) (r : Fin 32) (c : Fin 64),
    s.fbRead (r.val * 64 + c.val) = if s.fb[r][c] then 0xFFFFFFFF#32 else 0x00000000#32

/-! ### Frames: what no instruction but those named may change (10_state.md R23 to R32) -/

/-- General registers: an instruction changes none but those 10_state.md R23 lists for it (the table is derived
there). -/
def Obligations.FrameOfGeneralRegisters : Prop :=
  ∀ (i : Instr) (s : State), ∃ t, exec i s = .next t ∧ ∀ z, writesReg i z = false → t.reg z = s.reg z

/-- The index register is changed only by LD I, ADD I and LD F (10_state.md R27). -/
def Obligations.FrameOfIndexRegister : Prop :=
  ∀ (i : Instr) (s : State), ∃ t, exec i s = .next t ∧ (writesIndex i = false → t.index = s.index)

/-- pc: a handler that is no control transfer leaves it at the pre-incremented value (10_state.md R24, 40_cycle.md
R103). -/
def Obligations.FrameOfProgramCounter : Prop :=
  ∀ (i : Instr) (s : State), ∃ t, exec i s = .next t ∧ (writesPc i = false → t.pc = s.pc)

/-- The call stack and SP are changed only by CALL and RET (10_state.md R28: no other instruction reads or writes
them). -/
def Obligations.FrameOfCallStack : Prop :=
  ∀ (i : Instr) (s : State), ∃ t, exec i s = .next t ∧ (writesStack i = false → t.stack = s.stack ∧ t.sp = s.sp)

/-- In the execute stage DT is changed only by LD DT, Vx and ST only by LD ST, Vx (10_state.md R30). -/
def Obligations.FrameOfTimers : Prop :=
  ∀ (i : Instr) (s : State), ∃ t, exec i s = .next t ∧
    (writesDt i = false → t.dt = s.dt) ∧ (writesSt i = false → t.st = s.st)

/-- The framebuffer is changed only by CLS and DRW (10_state.md R31). -/
def Obligations.FrameOfFramebuffer : Prop :=
  ∀ (i : Instr) (s : State), ∃ t, exec i s = .next t ∧ (writesFb i = false → t.fb = s.fb)

/-- Memory: every byte outside the addresses an instruction stores to reads as before, and an instruction that
stores nothing leaves the memory as it was; an address out of bounds is never stored to (20_memory.md R50, R54,
R56; the list of addresses is computed as the meanings compute it). -/
def Obligations.FrameOfMemory : Prop :=
  ∀ (i : Instr) (s : State), ∃ t, exec i s = .next t ∧
    (∀ a, a ∉ storeAddrs i s ∨ 4096 ≤ a → t.mem.read a = s.mem.read a) ∧
    (storeAddrs i s = [] → t.mem = s.mem)

/-- Inputs: no instruction writes the keypad or what the host has pending, and a drawn byte is consumed by RND and by
nothing else (10_state.md R32, 60_exceptions.md R245). No instruction and no step changes the policies the block was
constructed with (00_scope.md R10). Where these stand in State is the model's choice (logs 1, 3 and 24). -/
def Obligations.FrameOfInputs : Prop :=
  (∀ (i : Instr) (s : State), ∃ t, exec i s = .next t ∧ t.keys = s.keys ∧ t.pendingKeys = s.pendingKeys ∧
    t.policies = s.policies ∧ t.draws = if drawsByte i then s.draws + 1 else s.draws) ∧
  ∀ s t : State, step s = .next t → t.policies = s.policies

/-- Only RND reads the draw and only SKP, SKNP and LD Vx, K read the keypad: any other instruction does the same
whatever they hold (40_cycle.md R109, derived there; 10_state.md R32). -/
def Obligations.InputsAreReadOnlyByTheirInstructions : Prop :=
  (∀ (i : Instr) (s : State) (d : Nat), drawsByte i = false →
    exec i { s with draws := d } = mapNext (fun t => { t with draws := d }) (exec i s)) ∧
  (∀ (i : Instr) (s : State) (k : Keypad), readsKeys i = false →
    exec i { s with keys := k } = mapNext (fun t => { t with keys := k }) (exec i s))

/-- What a program cannot see: no instruction reads ST, and none but DRW reads the framebuffer, so an instruction that
does not write them does the same whatever they hold (10_state.md R30, R31). -/
def Obligations.SoundTimerAndFramebufferAreUnreadable : Prop :=
  (∀ (i : Instr) (s : State) (v : Byte), writesSt i = false →
    exec i { s with st := v } = mapNext (fun t => { t with st := v }) (exec i s)) ∧
  (∀ (i : Instr) (s : State) (fb : Framebuffer), writesFb i = false →
    exec i { s with fb := fb } = mapNext (fun t => { t with fb := fb }) (exec i s))

/-! ### Arithmetic, logic and random instructions (41_arithmetic.md) -/

/-- LD Vx, KK (41_arithmetic.md R122): its encoding, its result, no flag; everything else is unchanged. -/
def Obligations.LoadImmediateResult : Prop :=
  DecodesAs 0xF000 0x6000 (fun w => .ldImm (fieldX w) (fieldKK w)) ∧
  ∀ (x : RegIdx) (kk : Byte) (s : State), ∃ t, exec (.ldImm x kk) s = .next t ∧ t = { s with regs := t.regs } ∧
    ∀ z, t.reg z = if z = x then kk else s.reg z

/-- ADD Vx, KK (41_arithmetic.md R123): the sum modulo 256, no flag: VF is unchanged unless X = 15. -/
def Obligations.AddImmediateResult : Prop :=
  DecodesAs 0xF000 0x7000 (fun w => .addImm (fieldX w) (fieldKK w)) ∧
  ∀ (x : RegIdx) (kk : Byte) (s : State), ∃ t, exec (.addImm x kk) s = .next t ∧ t = { s with regs := t.regs } ∧
    (t.reg x).toNat = ((s.reg x).toNat + kk.toNat) % 256 ∧ ∀ z, z ≠ x → t.reg z = s.reg z

/-- LD Vx, Vy (41_arithmetic.md R124): the copy, no flag. -/
def Obligations.CopyRegisterResult : Prop :=
  DecodesAs 0xF00F 0x8000 (fun w => .ldReg (fieldX w) (fieldY w)) ∧
  ∀ (x y : RegIdx) (s : State), ∃ t, exec (.ldReg x y) s = .next t ∧ t = { s with regs := t.regs } ∧
    ∀ z, t.reg z = if z = x then s.reg y else s.reg z

/-- OR, AND and XOR (41_arithmetic.md R125, R126, R127): the bitwise results; VF is not cleared. -/
def Obligations.BitwiseResults : Prop :=
  DecodesAs 0xF00F 0x8001 (fun w => .orReg (fieldX w) (fieldY w)) ∧
  DecodesAs 0xF00F 0x8002 (fun w => .andReg (fieldX w) (fieldY w)) ∧
  DecodesAs 0xF00F 0x8003 (fun w => .xorReg (fieldX w) (fieldY w)) ∧
  ∀ (x y : RegIdx) (s : State),
    (∃ t, exec (.orReg x y) s = .next t ∧ t = { s with regs := t.regs } ∧
      ∀ z, t.reg z = if z = x then s.reg x ||| s.reg y else s.reg z) ∧
    (∃ t, exec (.andReg x y) s = .next t ∧ t = { s with regs := t.regs } ∧
      ∀ z, t.reg z = if z = x then s.reg x &&& s.reg y else s.reg z) ∧
    (∃ t, exec (.xorReg x y) s = .next t ∧ t = { s with regs := t.regs } ∧
      ∀ z, t.reg z = if z = x then s.reg x ^^^ s.reg y else s.reg z)

/-- ADD Vx, Vy (41_arithmetic.md R128): Vx is the sum modulo 256, VF the carry unless X = 15, when the result
overwrites it; the sum is formed from the old registers, VF as an operand among them. -/
def Obligations.AddWithCarryResult : Prop :=
  DecodesAs 0xF00F 0x8004 (fun w => .addReg (fieldX w) (fieldY w)) ∧
  ∀ (x y : RegIdx) (s : State), ∃ t, exec (.addReg x y) s = .next t ∧ t = { s with regs := t.regs } ∧
    (t.reg x).toNat = ((s.reg x).toNat + (s.reg y).toNat) % 256 ∧
    (x ≠ 15 → t.reg 15 = if 255 < (s.reg x).toNat + (s.reg y).toNat then 0x01 else 0x00) ∧
    ∀ z, z ≠ x → z ≠ 15 → t.reg z = s.reg z

/-- SUB Vx, Vy (41_arithmetic.md R129): VF = 1 exactly when Vx >= Vy; then Vx - Vy modulo 256, whose operands are read
after the flag write when the block's ALU_FLAG_ALIAS is sequential (the default) and before it when it is snapshot (the
spec's own choice D8, log 6). -/
def Obligations.SubtractResult : Prop :=
  DecodesAs 0xF00F 0x8005 (fun w => .sub (fieldX w) (fieldY w)) ∧
  ∀ (x y : RegIdx) (s : State) (a b f : Byte), a = s.reg x → b = s.reg y →
    f = (if b.toNat ≤ a.toNat then 0x01 else 0x00) →
    ∃ t, exec (.sub x y) s = .next t ∧ t = { s with regs := t.regs } ∧
      (s.policies.aluFlagAlias = .sequential → t.reg x = (if x = 15 then f else a) - (if y = 15 then f else b)) ∧
      (s.policies.aluFlagAlias = .snapshot → t.reg x = a - b) ∧
      (x ≠ 15 → t.reg 15 = f) ∧ ∀ z, z ≠ x → z ≠ 15 → t.reg z = s.reg z

/-- SUBN Vx, Vy (41_arithmetic.md R131): VF = 1 exactly when Vy >= Vx; then Vy - Vx modulo 256, under both settings of
ALU_FLAG_ALIAS as in SUB (the spec's own choice D8, log 6). -/
def Obligations.SubtractReversedResult : Prop :=
  DecodesAs 0xF00F 0x8007 (fun w => .subn (fieldX w) (fieldY w)) ∧
  ∀ (x y : RegIdx) (s : State) (a b f : Byte), a = s.reg x → b = s.reg y →
    f = (if a.toNat ≤ b.toNat then 0x01 else 0x00) →
    ∃ t, exec (.subn x y) s = .next t ∧ t = { s with regs := t.regs } ∧
      (s.policies.aluFlagAlias = .sequential → t.reg x = (if y = 15 then f else b) - (if x = 15 then f else a)) ∧
      (s.policies.aluFlagAlias = .snapshot → t.reg x = b - a) ∧
      (x ≠ 15 → t.reg 15 = f) ∧ ∀ z, z ≠ x → z ≠ 15 → t.reg z = s.reg z

/-- SHR Vx and SHL Vx (41_arithmetic.md R130, R132): VF is the bit shifted out, Vx the logical shift by one; with
X = 15 the setting sequential of ALU_FLAG_ALIAS (the default) shifts the new VF (0 for SHR, 0x00 or 0x02 for SHL) and
snapshot the old one (the spec's own choice D8, log 6). The Y field does not matter. -/
def Obligations.ShiftResults : Prop :=
  DecodesAs 0xF00F 0x8006 (fun w => .shr (fieldX w)) ∧
  DecodesAs 0xF00F 0x800E (fun w => .shl (fieldX w)) ∧
  ∀ (x : RegIdx) (s : State) (a : Byte), a = s.reg x →
    (∃ t, exec (.shr x) s = .next t ∧ t = { s with regs := t.regs } ∧
      (x ≠ 15 ∨ s.policies.aluFlagAlias = .snapshot → (t.reg x).toNat = a.toNat / 2) ∧
      (x = 15 → s.policies.aluFlagAlias = .sequential → t.reg 15 = 0x00) ∧
      (x ≠ 15 → (t.reg 15).toNat = a.toNat % 2) ∧ ∀ z, z ≠ x → z ≠ 15 → t.reg z = s.reg z) ∧
    (∃ t, exec (.shl x) s = .next t ∧ t = { s with regs := t.regs } ∧
      (x ≠ 15 ∨ s.policies.aluFlagAlias = .snapshot → (t.reg x).toNat = a.toNat * 2 % 256) ∧
      (x = 15 → s.policies.aluFlagAlias = .sequential → (t.reg 15).toNat = a.toNat / 128 * 2) ∧
      (x ≠ 15 → (t.reg 15).toNat = a.toNat / 128) ∧ ∀ z, z ≠ x → z ≠ 15 → t.reg z = s.reg z)

/-- The policies matter only where the spec says: ALU_FLAG_ALIAS for SUB and SUBN with X or Y = 15 and for SHR and SHL
with X = 15 (41_arithmetic.md R121), CALL_FULL_POLICY for CALL with SP = 16 (43_control.md R174), FETCH_OOB_POLICY for
a fetch out of bounds (40_cycle.md R102). Everywhere else an instruction, and a whole cycle, does the same under every
setting (the parameters are the spec's own choices D3, D6, D8; logs 4, 5, 6, 24). -/
def Obligations.PoliciesMatterOnlyWhereTheSpecSays : Prop :=
  (∀ (i : Instr) (s : State) (q : Policies), readsPolicy i s = false →
    exec i { s with policies := q } = mapNext (fun t => { t with policies := q }) (exec i s)) ∧
  ∀ (s : State) (q : Policies), s.pc.toNat ≤ 0x0FFE → readsPolicy (decode s.fetch) s = false →
    cycle { s with policies := q } = mapNext (fun t => { t with policies := q }) (cycle s)

/-- RND Vx, KK (41_arithmetic.md R133): Vx is the drawn byte, a free value, under the mask KK: every bit outside KK is 0,
KK = 0xFF gives the drawn byte; one draw is consumed (the free draw is the spec's own choice D18, log 3). -/
def Obligations.RandomAndResult : Prop :=
  DecodesAs 0xF000 0xC000 (fun w => .rnd (fieldX w) (fieldKK w)) ∧
  ∀ (x : RegIdx) (kk : Byte) (s : State), ∃ t, exec (.rnd x kk) s = .next t ∧
    t = { s with regs := t.regs, draws := s.draws + 1 } ∧ t.reg x = Config.rnd s.draws &&& kk ∧
    (∀ b, kk.getLsbD b = false → (t.reg x).getLsbD b = false) ∧ (kk = 0xFF → t.reg x = Config.rnd s.draws) ∧
    ∀ z, z ≠ x → t.reg z = s.reg z

/-! ### Index register and memory instructions (42_memory_index.md) -/

/-- LD I, NNN (42_memory_index.md R150): I is the 12-bit literal, zero-extended. -/
def Obligations.SetIndexResult : Prop :=
  DecodesAs 0xF000 0xA000 (fun w => .ldI (fieldNNN w)) ∧
  ∀ (nnn : BitVec 12) (s : State), ∃ t, exec (.ldI nnn) s = .next t ∧ t = { s with index := t.index } ∧
    t.index.toNat = nnn.toNat

/-- ADD I, Vx (42_memory_index.md R151): applied when the unbounded sum is below 4096, dropped as a whole otherwise; VF
is not written (the bound is the spec's own choice D12, log 15). -/
def Obligations.AddToIndexResult : Prop :=
  DecodesAs 0xF0FF 0xF01E (fun w => .addI (fieldX w)) ∧
  ∀ (x : RegIdx) (s : State), ∃ t, exec (.addI x) s = .next t ∧ t = { s with index := t.index } ∧
    t.index.toNat =
      if s.index.toNat + (s.reg x).toNat < 4096 then s.index.toNat + (s.reg x).toNat else s.index.toNat

/-- LD F, Vx (42_memory_index.md R152): the glyph's address 0x050 + 5 × Vx when Vx < 16, nothing otherwise. -/
def Obligations.FontAddressResult : Prop :=
  DecodesAs 0xF0FF 0xF029 (fun w => .ldF (fieldX w)) ∧
  ∀ (x : RegIdx) (s : State), ∃ t, exec (.ldF x) s = .next t ∧ t = { s with index := t.index } ∧
    t.index.toNat = if (s.reg x).toNat < 16 then 0x050 + 5 * (s.reg x).toNat else s.index.toNat

/-- LD B, Vx (42_memory_index.md R153): hundreds, tens and units to I, I + 1, I + 2, each skipped alone when out of
bounds; every other byte and everything else is unchanged (the per-digit skip is the spec's own choice D10, log 14). -/
def Obligations.StoreBcdResult : Prop :=
  DecodesAs 0xF0FF 0xF033 (fun w => .ldB (fieldX w)) ∧
  ∀ (x : RegIdx) (s : State), ∃ t, exec (.ldB x) s = .next t ∧ t = { s with mem := t.mem } ∧
    ∀ a, (t.mem.read a).toNat =
      if 4096 ≤ a then (s.mem.read a).toNat
      else if a = s.effAddr 0 then (s.reg x).toNat / 100
      else if a = s.effAddr 1 then (s.reg x).toNat / 10 % 10
      else if a = s.effAddr 2 then (s.reg x).toNat % 10
      else (s.mem.read a).toNat

/-- LD [I], Vx (42_memory_index.md R154): V0 to VX to I + 0 to I + X, each skipped alone when out of bounds; every other
byte, I and everything else are unchanged (I unchanged is the spec's own choice D11, log 15). -/
def Obligations.RegisterDumpResult : Prop :=
  DecodesAs 0xF0FF 0xF055 (fun w => .ldMemVx (fieldX w)) ∧
  ∀ (x : RegIdx) (s : State), ∃ t, exec (.ldMemVx x) s = .next t ∧ t = { s with mem := t.mem } ∧
    (∀ k : RegIdx, k ≤ x → s.effAddr k.val < 4096 → t.mem.read (s.effAddr k.val) = s.reg k) ∧
    (∀ a, (∀ k : RegIdx, k ≤ x → a ≠ s.effAddr k.val) ∨ 4096 ≤ a → t.mem.read a = s.mem.read a)

/-- LD Vx, [I] (42_memory_index.md R155): V0 to VX from I + 0 to I + X; a register whose address is out of bounds keeps
its value; I, memory and everything else are unchanged (I unchanged is the spec's own choice D11, log 15). -/
def Obligations.RegisterLoadResult : Prop :=
  DecodesAs 0xF0FF 0xF065 (fun w => .ldVxMem (fieldX w)) ∧
  ∀ (x : RegIdx) (s : State), ∃ t, exec (.ldVxMem x) s = .next t ∧ t = { s with regs := t.regs } ∧
    ∀ z, t.reg z = if z ≤ x ∧ s.effAddr z.val < 4096 then s.mem.read (s.effAddr z.val) else s.reg z

/-! ### Control transfer (43_control.md): pc is already pre-incremented (10_state.md R24) -/

/-- RET (43_control.md R172): with an entry in use, pc is the top entry and SP one less, the entry kept; with the stack
empty, no state changes. -/
def Obligations.ReturnResult : Prop :=
  DecodesAs 0xF00F 0x000E (fun _ => .ret) ∧
  (∀ (s : State) (k : Fin 16), k.val + 1 = s.sp.val → ∃ t, exec .ret s = .next t ∧
    t = { s with pc := t.pc, sp := t.sp } ∧ t.pc = s.stack[k] ∧ t.sp.val = k.val) ∧
  ∀ s : State, s.sp.val = 0 → exec .ret s = .next s

/-- CALL NNN (43_control.md R174): with SP < 16, the pre-incremented pc is pushed and pc is NNN; with SP = 16, no state
changes when the block's CALL_FULL_POLICY is nop (the default), and pc alone is NNN when it is jump (the spec's own
choice D6, log 5). -/
def Obligations.CallResult : Prop :=
  DecodesAs 0xF000 0x2000 (fun w => .call (fieldNNN w)) ∧
  (∀ (nnn : BitVec 12) (s : State), s.sp.val < 16 → ∃ t, exec (.call nnn) s = .next t ∧
    t = { s with pc := t.pc, sp := t.sp, stack := t.stack } ∧ t.pc.toNat = nnn.toNat ∧ t.sp.val = s.sp.val + 1 ∧
    ∀ k : Fin 16, t.stack[k] = if k.val = s.sp.val then s.pc else s.stack[k]) ∧
  (∀ (nnn : BitVec 12) (s : State), s.sp.val = 16 → s.policies.callFull = .nop → exec (.call nnn) s = .next s) ∧
  ∀ (nnn : BitVec 12) (s : State), s.sp.val = 16 → s.policies.callFull = .jump →
    exec (.call nnn) s = .next { s with pc := nnn.setWidth 16 }

/-- A call then a return restores pc to the instruction after the call and SP to its depth, at every depth below 16 and
whatever ran in between, if it left SP and the pushed entry as the call did (95_test_vectors.md W5; 43_control.md
R172, R174). -/
def Obligations.CallThenReturnRestoresPc : Prop :=
  ∀ (nnn : BitVec 12) (s : State) (k : Fin 16), k.val = s.sp.val → ∃ u, exec (.call nnn) s = .next u ∧
    ∀ v : State, v.sp = u.sp → v.stack[k] = u.stack[k] →
      ∃ t, exec .ret v = .next t ∧ t.pc = s.pc ∧ t.sp = s.sp

/-- JP NNN (43_control.md R173): pc is the 12-bit literal, zero-extended. -/
def Obligations.JumpResult : Prop :=
  DecodesAs 0xF000 0x1000 (fun w => .jp (fieldNNN w)) ∧
  ∀ (nnn : BitVec 12) (s : State), ∃ t, exec (.jp nnn) s = .next t ∧ t = { s with pc := t.pc } ∧
    t.pc.toNat = nnn.toNat

/-- JP V0, NNN (43_control.md R179): pc is NNN + V0, not masked, up to 0x10FE (the spec's own choice D5, log 11). -/
def Obligations.JumpWithOffsetResult : Prop :=
  DecodesAs 0xF000 0xB000 (fun w => .jpV0 (fieldNNN w)) ∧
  ∀ (nnn : BitVec 12) (s : State), ∃ t, exec (.jpV0 nnn) s = .next t ∧ t = { s with pc := t.pc } ∧
    t.pc.toNat = nnn.toNat + (s.reg 0).toNat

/-- The four conditional skips (43_control.md R175 to R178): pc + 2 modulo 2^16 when the comparison holds, pc unchanged
when it does not; nothing else changes. The low nibble of 5XYN and 9XYN does not matter. -/
def Obligations.ConditionalSkipResults : Prop :=
  DecodesAs 0xF000 0x3000 (fun w => .seImm (fieldX w) (fieldKK w)) ∧
  DecodesAs 0xF000 0x4000 (fun w => .sneImm (fieldX w) (fieldKK w)) ∧
  DecodesAs 0xF000 0x5000 (fun w => .seReg (fieldX w) (fieldY w)) ∧
  DecodesAs 0xF000 0x9000 (fun w => .sneReg (fieldX w) (fieldY w)) ∧
  ∀ (x y : RegIdx) (kk : Byte) (s : State),
    exec (.seImm x kk) s = .next { s with pc := if s.reg x = kk then s.pc + 2 else s.pc } ∧
    exec (.sneImm x kk) s = .next { s with pc := if s.reg x = kk then s.pc else s.pc + 2 } ∧
    exec (.seReg x y) s = .next { s with pc := if s.reg x = s.reg y then s.pc + 2 else s.pc } ∧
    exec (.sneReg x y) s = .next { s with pc := if s.reg x = s.reg y then s.pc else s.pc + 2 }

/-! ### Framebuffer instructions (44_framebuffer.md) -/

/-- CLS (44_framebuffer.md R191): every pixel off, and so every element at the read port zero, for any prior state; VF
and everything else unchanged. -/
def Obligations.ClearDisplayResult : Prop :=
  DecodesAs 0xF00F 0x0000 (fun _ => .cls) ∧
  ∀ s : State, ∃ t, exec .cls s = .next t ∧ t = { s with fb := t.fb } ∧
    (∀ r c, t.fb.pixel r c = false) ∧ ∀ k, t.fbRead k = 0x00000000

/-- DRW Vx, Vy, N (44_framebuffer.md R192, R193): the literal loop over rows and columns is the pointwise XOR of the
framebuffer with the clipped sprite, and VF = 1 exactly when a pixel under a 1 bit was on; nothing else changes. Bit 7
leftmost is the spec's own choice D9 (log 13). -/
def Obligations.DrawSpriteIsPointwiseXor : Prop :=
  DecodesAs 0xF000 0xD000 (fun w => .drw (fieldX w) (fieldY w) (fieldN w)) ∧
  ∀ (x y : RegIdx) (n : BitVec 4) (s : State), ∃ t, exec (.drw x y n) s = .next t ∧
    t = { s with regs := t.regs, fb := t.fb } ∧
    (∀ r c, t.fb.pixel r c = (s.fb.pixel r c ^^ spriteCovers s x y n r c)) ∧
    ((∃ r c, spriteCovers s x y n r c = true ∧ s.fb.pixel r c = true) → t.reg 15 = 0x01) ∧
    ((¬ ∃ r c, spriteCovers s x y n r c = true ∧ s.fb.pixel r c = true) → t.reg 15 = 0x00) ∧
    ∀ z, z ≠ 15 → t.reg z = s.reg z

/-- Two draws of the same sprite at the same place restore the framebuffer, and the second sets VF = 1 exactly when a
touched pixel was on after the first (44_framebuffer.md R194, derived there; C6's reading of "any pixel"; log 13). -/
def Obligations.DrawTwiceRestoresFramebuffer : Prop :=
  ∀ (x y : RegIdx) (n : BitVec 4) (s t : State), exec (.drw x y n) s = .next t →
    t.startCol x = s.startCol x → t.startRow y = s.startRow y →
    ∃ u, exec (.drw x y n) t = .next u ∧ u.fb = s.fb ∧
      (u.reg 15 = 0x01 ↔ ∃ r c, spriteCovers s x y n r c = true ∧ t.fb.pixel r c = true) ∧
      (u.reg 15 = 0x01 ∨ u.reg 15 = 0x00)

/-! ### Keypad and timer instructions (45_timer_input.md) -/

/-- SKP Vx and SKNP Vx (45_timer_input.md R210, R211): a skip when the key Vx names is pressed, or is not; a value of 16
or more never skips, for SKNP by the spec's own choice D22 (90_conflicts.md C3, log 17). -/
def Obligations.KeySkipResults : Prop :=
  DecodesAs 0xF00F 0xE00E (fun w => .skp (fieldX w)) ∧
  DecodesAs 0xF00F 0xE001 (fun w => .sknp (fieldX w)) ∧
  (∀ (x : RegIdx) (s : State) (k : Fin 16), (s.reg x).toNat = k.val →
    exec (.skp x) s = .next { s with pc := if s.keys[k] then s.pc + 2 else s.pc } ∧
    exec (.sknp x) s = .next { s with pc := if s.keys[k] then s.pc else s.pc + 2 }) ∧
  ∀ (x : RegIdx) (s : State), 16 ≤ (s.reg x).toNat → exec (.skp x) s = .next s ∧ exec (.sknp x) s = .next s

/-- LD Vx, K (45_timer_input.md R213): the least pressed key to Vx; with no key pressed pc goes back by 2 and nothing else
changes, so that the step leaves pc at this instruction's own address, registers unchanged. -/
def Obligations.KeyWaitResult : Prop :=
  DecodesAs 0xF0FF 0xF00A (fun w => .ldVxK (fieldX w)) ∧
  (∀ (x : RegIdx) (s : State) (k : Fin 16), s.keys[k] = true → (∀ j : Fin 16, j < k → s.keys[j] = false) →
    ∃ t, exec (.ldVxK x) s = .next t ∧ t = { s with regs := t.regs } ∧ (t.reg x).toNat = k.val ∧
      ∀ z, z ≠ x → t.reg z = s.reg z) ∧
  (∀ (x : RegIdx) (s : State), (∀ k : Fin 16, s.keys[k] = false) →
    exec (.ldVxK x) s = .next { s with pc := s.pc - 2 }) ∧
  ∀ (x : RegIdx) (s : State), s.pc.toNat ≤ 0x0FFE → decode s.fetch = .ldVxK x →
    (∀ k : Fin 16, s.keys[k] = false) → ∃ t, cycle s = .next t ∧ t.pc = s.pc ∧ t.regs = s.regs ∧
      t.dt.toNat = s.dt.toNat - 1 ∧ t.st.toNat = s.st.toNat - 1

/-- LD Vx, DT (45_timer_input.md R212): Vx is DT as it was before this step's decrement. -/
def Obligations.ReadDelayTimerResult : Prop :=
  DecodesAs 0xF0FF 0xF007 (fun w => .ldVxDt (fieldX w)) ∧
  (∀ (x : RegIdx) (s : State), ∃ t, exec (.ldVxDt x) s = .next t ∧ t = { s with regs := t.regs } ∧
    ∀ z, t.reg z = if z = x then s.dt else s.reg z) ∧
  ∀ (x : RegIdx) (s : State), s.pc.toNat ≤ 0x0FFE → decode s.fetch = .ldVxDt x →
    ∃ t, cycle s = .next t ∧ t.reg x = s.dt ∧ t.dt.toNat = s.dt.toNat - 1

/-- LD DT, Vx and LD ST, Vx (45_timer_input.md R214, R215): the timer is Vx after the handler and Vx - 1, or 0, when the
step ends. -/
def Obligations.SetTimerResults : Prop :=
  DecodesAs 0xF0FF 0xF015 (fun w => .ldDtVx (fieldX w)) ∧ DecodesAs 0xF0FF 0xF018 (fun w => .ldStVx (fieldX w)) ∧
  (∀ (x : RegIdx) (s : State), exec (.ldDtVx x) s = .next { s with dt := s.reg x } ∧
    exec (.ldStVx x) s = .next { s with st := s.reg x }) ∧
  (∀ (x : RegIdx) (s : State), s.pc.toNat ≤ 0x0FFE → decode s.fetch = .ldDtVx x →
    ∃ t, cycle s = .next t ∧ t.dt.toNat = (s.reg x).toNat - 1) ∧
  ∀ (x : RegIdx) (s : State), s.pc.toNat ≤ 0x0FFE → decode s.fetch = .ldStVx x →
    ∃ t, cycle s = .next t ∧ t.st.toNat = (s.reg x).toNat - 1

/-! ### The no-op (40_cycle.md section 3) -/

/-- NOP (40_cycle.md R107): its words are those no row matches, the handler writes no state, and the step around it
advances pc by 2, counts the timers down and changes nothing else. -/
def Obligations.NopWritesNothing : Prop :=
  (∀ w : Word, decode w = .nop w ↔ ∀ row ∈ opcodeMap, w &&& row.mask ≠ row.pattern) ∧
  (∀ (w : Word) (s : State), exec (.nop w) s = .next s) ∧
  ∀ s : State, s.pc.toNat ≤ 0x0FFE → decode s.fetch = .nop s.fetch →
    ∃ t, cycle s = .next t ∧ t.pc = s.pc + 2 ∧ t.dt.toNat = s.dt.toNat - 1 ∧ t.st.toNat = s.st.toNat - 1 ∧
      t = { s with pc := t.pc, dt := t.dt, st := t.st }

/-! ### Construction (70_reset_and_hazards.md section 1) -/

/-- The state after construction, component by component, for every setting of the parameters, every FONT and every
keypad the host has, which construction does not reset (70_reset_and_hazards.md R260; the parameters are 00_scope.md
R10's). That the policies and the keypad are fields of State is the model's choice (log 24, log 1). -/
def Obligations.ConstructionByComponent : Prop :=
  ∀ (p : Params) (keys : Keypad) (t : State), t = State.construct p keys →
    (∀ a, a < 0x050 → t.mem.read a = 0x00) ∧ (∀ k : Fin 80, t.mem.read (0x050 + k.val) = p.font[k]) ∧
    (∀ a, 0x0A0 ≤ a → a < 4096 → t.mem.read a = 0x00) ∧
    (∀ z, t.reg z = 0x00) ∧ t.index = 0x0000 ∧ t.pc = 0x0200 ∧ (∀ k : Fin 16, t.stack[k] = 0x0000) ∧ t.sp = 0 ∧
    t.dt = 0x00 ∧ t.st = 0x00 ∧ (∀ r c, t.fb.pixel r c = false) ∧ t.keys = keys ∧ t.policies = p.policies
end

