-- ==== Sys2Proof/Laws/Decode.lean ====
section
/-! SUPPORT. Words, keys, fields and masks as numbers, so that claims about the encoding become linear
arithmetic. -/

namespace Sys2Proof

/-- A bit string put together is a number put together. -/
theorem toNat_append_add {n m : Nat} (a : BitVec n) (b : BitVec m) :
    (a ++ b).toNat = a.toNat * 2 ^ m + b.toNat := by
  rw [BitVec.toNat_append, ← Nat.shiftLeft_add_eq_or_of_lt b.isLt, Nat.shiftLeft_eq]

theorem wordNNN_toNat (op : BitVec 4) (nnn : BitVec 12) : (wordNNN op nnn).toNat = op.toNat * 4096 + nnn.toNat :=
  toNat_append_add op nnn

theorem wordXKK_toNat (op : BitVec 4) (x : RegIdx) (kk : Byte) :
    (wordXKK op x kk).toNat = op.toNat * 4096 + x.val * 256 + kk.toNat := by
  have h := toNat_append_add (op ++ nibble x) kk
  rw [toNat_append_add op (nibble x)] at h
  have : (nibble x).toNat = x.val := rfl
  exact h.trans (by omega)

theorem wordXYN_toNat (op : BitVec 4) (x y : RegIdx) (n : BitVec 4) :
    (wordXYN op x y n).toNat = op.toNat * 4096 + x.val * 256 + y.val * 16 + n.toNat := by
  have h := toNat_append_add (op ++ nibble x ++ nibble y) n
  rw [toNat_append_add (op ++ nibble x) (nibble y), toNat_append_add op (nibble x)] at h
  have : (nibble x).toNat = x.val := rfl
  have : (nibble y).toNat = y.val := rfl
  exact h.trans (by omega)

theorem primaryKey_eq (w : Word) : primaryKey w = w.toNat / 4096 := by
  have := w.isLt
  simp only [primaryKey, BitVec.extractLsb'_toNat, Nat.shiftRight_eq_div_pow]; omega

theorem nibbleKey_eq (w : Word) : nibbleKey w = w.toNat % 16 := by
  simp [nibbleKey, BitVec.extractLsb'_toNat]

theorem byteKey_eq (w : Word) : byteKey w = w.toNat % 256 := by
  simp [byteKey, BitVec.extractLsb'_toNat]

theorem fieldX_val (w : Word) : (fieldX w).val = w.toNat / 256 % 16 := by
  simp [fieldX, Nat.shiftRight_eq_div_pow]

theorem fieldY_val (w : Word) : (fieldY w).val = w.toNat / 16 % 16 := by
  simp [fieldY, Nat.shiftRight_eq_div_pow]

theorem fieldN_toNat (w : Word) : (fieldN w).toNat = w.toNat % 16 := by
  simp [fieldN, BitVec.extractLsb'_toNat]

theorem fieldKK_toNat (w : Word) : (fieldKK w).toNat = w.toNat % 256 := by
  simp [fieldKK, BitVec.extractLsb'_toNat]

theorem fieldNNN_toNat (w : Word) : (fieldNNN w).toNat = w.toNat % 4096 := by
  simp [fieldNNN, BitVec.extractLsb'_toNat]

theorem mask_high_eq_shift (w : Word) : w &&& 0xF000#16 = (w >>> 12) <<< 12 := by
  apply BitVec.eq_of_getLsbD_eq
  intro i hi
  interval_cases i <;> simp

theorem mask_split_low (w : Word) : w &&& 0xF00F#16 = (w >>> 12) <<< 12 ||| (w &&& 0x000F#16) := by
  apply BitVec.eq_of_getLsbD_eq
  intro i hi
  interval_cases i <;> simp

theorem mask_split_byte (w : Word) : w &&& 0xF0FF#16 = (w >>> 12) <<< 12 ||| (w &&& 0x00FF#16) := by
  apply BitVec.eq_of_getLsbD_eq
  intro i hi
  interval_cases i <;> simp

theorem shift_high_toNat (w : Word) : ((w >>> 12) <<< 12).toNat = (w.toNat / 4096) <<< 12 := by
  have := w.isLt
  simp only [BitVec.toNat_shiftLeft, BitVec.toNat_ushiftRight, Nat.shiftRight_eq_div_pow, Nat.shiftLeft_eq]; omega

/-- The mask 0xF000 keeps the high nibble. -/
theorem mask_high_toNat (w : Word) : (w &&& 0xF000#16).toNat = w.toNat / 4096 * 4096 := by
  rw [mask_high_eq_shift, shift_high_toNat, Nat.shiftLeft_eq]

/-- The mask 0xF00F keeps the high and the low nibble. -/
theorem mask_high_low_toNat (w : Word) : (w &&& 0xF00F#16).toNat = w.toNat / 4096 * 4096 + w.toNat % 16 := by
  have h : (w &&& 0x000F#16).toNat = w.toNat % 16 := by
    rw [BitVec.toNat_and]; exact Nat.and_two_pow_sub_one_eq_mod w.toNat 4
  rw [mask_split_low, BitVec.toNat_or, shift_high_toNat, h,
    ← Nat.shiftLeft_add_eq_or_of_lt (by omega : w.toNat % 16 < 2 ^ 12), Nat.shiftLeft_eq]

/-- The mask 0xF0FF keeps the high nibble and the low byte. -/
theorem mask_high_byte_toNat (w : Word) : (w &&& 0xF0FF#16).toNat = w.toNat / 4096 * 4096 + w.toNat % 256 := by
  have h : (w &&& 0x00FF#16).toNat = w.toNat % 256 := by
    rw [BitVec.toNat_and]; exact Nat.and_two_pow_sub_one_eq_mod w.toNat 8
  rw [mask_split_byte, BitVec.toNat_or, shift_high_toNat, h,
    ← Nat.shiftLeft_add_eq_or_of_lt (by omega : w.toNat % 256 < 2 ^ 12), Nat.shiftLeft_eq]

/-- Matching a row with mask 0xF000 is having its primary key (30_encoding.md R71, R75). -/
theorem match_high {w p : Word} {k : Nat} (hp : p.toNat = k * 4096) : w &&& 0xF000#16 = p ↔ primaryKey w = k := by
  rw [primaryKey_eq, ← BitVec.toNat_inj, mask_high_toNat, hp]; omega

/-- Matching a row with mask 0xF00F is having its primary and nibble keys (30_encoding.md R71, R75). -/
theorem match_high_low {w p : Word} {k j : Nat} (hj : j < 16) (hp : p.toNat = k * 4096 + j) :
    w &&& 0xF00F#16 = p ↔ primaryKey w = k ∧ nibbleKey w = j := by
  rw [primaryKey_eq, nibbleKey_eq, ← BitVec.toNat_inj, mask_high_low_toNat, hp]; omega

/-- Matching a row with mask 0xF0FF is having its primary and byte keys (30_encoding.md R71, R75). -/
theorem match_high_byte {w p : Word} {k j : Nat} (hj : j < 256) (hp : p.toNat = k * 4096 + j) :
    w &&& 0xF0FF#16 = p ↔ primaryKey w = k ∧ byteKey w = j := by
  rw [primaryKey_eq, byteKey_eq, ← BitVec.toNat_inj, mask_high_byte_toNat, hp]; omega

/-- The unrecognised words by their keys (30_encoding.md R77). -/
theorem unrecognised_iff (w : Word) : unrecognised w = true ↔
    (primaryKey w = 0 ∧ nibbleKey w ≠ 0 ∧ nibbleKey w ≠ 14) ∨
    (primaryKey w = 8 ∧ 8 ≤ nibbleKey w ∧ nibbleKey w ≠ 14) ∨
    (primaryKey w = 14 ∧ nibbleKey w ≠ 1 ∧ nibbleKey w ≠ 14) ∨
    (primaryKey w = 15 ∧ byteKey w ∉ [0x07, 0x0A, 0x15, 0x18, 0x1E, 0x29, 0x33, 0x55, 0x65]) := by
  have hn : nibbleKey w < 16 := (w.extractLsb' 0 4).isLt
  have e4 : ∀ k : BitVec 4, w.extractLsb' 12 4 = k ↔ primaryKey w = k.toNat := fun k => BitVec.toNat_inj.symm
  have en : ∀ k : BitVec 4, w.extractLsb' 0 4 = k ↔ nibbleKey w = k.toNat := fun k => BitVec.toNat_inj.symm
  have eb : ∀ k : Byte, w.extractLsb' 0 8 = k ↔ byteKey w = k.toNat := fun k => BitVec.toNat_inj.symm
  simp only [unrecognised, group8Holes, groupFKeys, List.contains_eq_mem, List.mem_cons, List.not_mem_nil,
    e4, en, eb, ne_eq, or_false,
    show (0x0 : BitVec 4).toNat = 0 from rfl, show (0x8 : BitVec 4).toNat = 8 from rfl,
    show (0xE : BitVec 4).toNat = 14 from rfl, show (0xF : BitVec 4).toNat = 15 from rfl]
  repeat' split
  all_goals simp_all
  omega

/-- A word is its two bytes, high byte first (20_memory.md R55). -/
theorem wordOfBytes_toNat (hi lo : Byte) : (wordOfBytes hi lo).toNat = 256 * hi.toNat + lo.toNat := by
  have h1 := hi.isLt; have h2 := lo.isLt
  have e : (hi.setWidth 16 <<< 8 : Word).toNat = hi.toNat <<< 8 := by
    simp only [BitVec.toNat_shiftLeft, BitVec.toNat_setWidth, Nat.shiftLeft_eq]; omega
  have e2 : (lo.setWidth 16 : Word).toNat = lo.toNat := by
    simp only [BitVec.toNat_setWidth]; omega
  rw [wordOfBytes, BitVec.toNat_or, e, e2, ← Nat.shiftLeft_add_eq_or_of_lt h2, Nat.shiftLeft_eq]; omega

/-- Splitting a word into bytes and joining them again. -/
theorem wordOfBytes_bytesOfWord (w : Word) : wordOfBytes (w.extractLsb' 8 8) (w.extractLsb' 0 8) = w := by
  apply BitVec.eq_of_toNat_eq
  have := w.isLt
  simp only [wordOfBytes_toNat, BitVec.extractLsb'_toNat, Nat.shiftRight_eq_div_pow]; omega

/-- Reading back the bytes of a word. -/
theorem decodeBytes_bytesOfWord (w : Word) (rest : List Byte) :
    decodeBytes (bytesOfWord w ++ rest) = .ok (decode w, rest) := by
  simp [bytesOfWord, decodeBytes, wordOfBytes_bytesOfWord]

end Sys2Proof
end

