-- ==== Sys2Proof/Laws/Memory.lean ====
section
/-! SUPPORT. The laws of memory: a read after a write, the canonical form kept by every operation, and equal
reads make equal memories. The read laws hold of every list, canonical or not. -/

namespace Sys2Proof.Machine

/-- The bounds test (00_scope.md R13). -/
theorem inBounds_iff (a : Nat) : inBounds a = true ↔ a < 4096 := decide_eq_true_iff

end Sys2Proof.Machine

namespace Sys2Proof.Machine.Memory

theorem read_erase_self (m : Memory) (a : Nat) : (m.erase a).read a = unlisted a := by
  induction m with
  | nil => rfl
  | cons c m ih =>
    obtain ⟨b, v⟩ := c
    by_cases h : b = a <;> simp_all [erase, read]

theorem read_erase_other (m : Memory) {a c : Nat} (h : c ≠ a) : (m.erase a).read c = m.read c := by
  induction m with
  | nil => rfl
  | cons d m ih =>
    obtain ⟨b, v⟩ := d
    by_cases hb : b = a
    · subst hb
      simpa [erase, read, Ne.symm h] using ih
    · by_cases hc : b = c <;> simp_all [erase, read]

theorem read_insertCell_self (m : Memory) (a : Nat) (v : Byte) (h : ∀ c ∈ m, c.1 ≠ a) :
    (insertCell a v m).read a = v := by
  induction m with
  | nil => simp [insertCell, read]
  | cons c m ih =>
    obtain ⟨b, u⟩ := c
    have hb : b ≠ a := h (b, u) (by simp)
    have hm : ∀ c ∈ m, c.1 ≠ a := fun c hc => h c (by simp [hc])
    by_cases hlt : a < b <;> simp [insertCell, read, hlt, hb, ih hm]

theorem read_insertCell_other (m : Memory) {a c : Nat} (v : Byte) (h : c ≠ a) :
    (insertCell a v m).read c = m.read c := by
  induction m with
  | nil => simp [insertCell, read, Ne.symm h]
  | cons d m ih =>
    obtain ⟨b, u⟩ := d
    by_cases hlt : a < b
    · simp [insertCell, read, hlt, Ne.symm h]
    · by_cases hb : b = c
      · subst hb; simp [insertCell, read, hlt]
      · simp [insertCell, read, hlt, hb, ih]

theorem not_mem_erase (m : Memory) (a : Nat) : ∀ c ∈ m.erase a, c.1 ≠ a := by
  intro c hc
  simpa [erase] using (List.mem_filter.mp hc).2

/-- A read after a write: the value written at its address, the old value at every other. -/
theorem read_write (m : Memory) (a c : Nat) (v : Byte) :
    (m.write a v).read c = if c = a then v else m.read c := by
  by_cases hv : v = unlisted a
  · by_cases hc : c = a
    · subst hc; simp [write, hv, read_erase_self]
    · simp [write, hv, hc, read_erase_other m hc]
  · by_cases hc : c = a
    · subst hc; simp [write, hv, read_insertCell_self _ _ _ (not_mem_erase m c)]
    · simp [write, hv, hc, read_insertCell_other _ _ hc, read_erase_other m hc]

/-- A read after a bounds-checked store (20_memory.md R54). -/
theorem read_store (m : Memory) (a c : Nat) (v : Byte) :
    (m.store a v).read c = if c = a ∧ c < memorySize then v else m.read c := by
  by_cases ha : a < memorySize
  · by_cases hc : c = a <;> simp_all [store, inBounds, read_write]
  · have : ¬ (c = a ∧ c < memorySize) := by rintro ⟨rfl, h⟩; exact ha h
    simp [store, inBounds, ha, this]

/-- What consecutive stores leave at an address: the list's byte for it when it is in bounds. -/
theorem read_storeList (m : Memory) (a c : Nat) (bs : List Byte) :
    (m.storeList a bs).read c =
      if a ≤ c ∧ c < a + bs.length ∧ c < memorySize then bs.getD (c - a) 0 else m.read c := by
  induction bs generalizing m a with
  | nil =>
    have : ¬ (a ≤ c ∧ c < a + 0 ∧ c < memorySize) := by omega
    simp [storeList]; intros; omega
  | cons v vs ih =>
    rw [storeList, ih, read_store]
    by_cases hc : c = a
    · subst hc
      by_cases hb : c < memorySize <;> simp [hb]
    · by_cases h : a + 1 ≤ c ∧ c < a + 1 + vs.length ∧ c < memorySize
      · have h' : a ≤ c ∧ c < a + (v :: vs).length ∧ c < memorySize := by
          simp only [List.length_cons]; omega
        have e : c - a = (c - (a + 1)) + 1 := by omega
        rw [if_pos h, if_pos h', e]; simp
      · have h' : ¬ (a ≤ c ∧ c < a + (v :: vs).length ∧ c < memorySize) := by
          simp only [List.length_cons]; omega
        rw [if_neg h, if_neg h', if_neg (by tauto)]

/-- The same at an address the stores reach. -/
theorem read_storeList_in (m : Memory) {a c : Nat} {bs : List Byte} (h1 : a ≤ c) (h2 : c < a + bs.length)
    (h3 : c < 4096) : (m.storeList a bs).read c = bs.getD (c - a) 0 := by
  rw [read_storeList, if_pos ⟨h1, h2, h3⟩]

/-- The same at an address the stores do not reach, or out of bounds. -/
theorem read_storeList_out (m : Memory) {a c : Nat} {bs : List Byte} (h : c < a ∨ a + bs.length ≤ c ∨ 4096 ≤ c) :
    (m.storeList a bs).read c = m.read c := by
  rw [read_storeList, if_neg]
  unfold memorySize; omega

theorem wf_erase {m : Memory} (h : m.wf) (a : Nat) : (m.erase a).wf :=
  ⟨h.1.filter _, fun c hc => h.2 c (List.mem_filter.mp hc).1⟩

theorem mem_insertCell {a : Nat} {v : Byte} {m : Memory} {c : Host.Cell} :
    c ∈ insertCell a v m ↔ c = (a, v) ∨ c ∈ m := by
  induction m with
  | nil => simp [insertCell]
  | cons d m ih =>
    by_cases h : a < d.1
    · simp [insertCell, h]
    · simp only [insertCell, h, if_false, List.mem_cons, ih]; tauto

theorem pairwise_insertCell {a : Nat} {v : Byte} {m : Memory} (hs : m.Pairwise (fun c d => c.1 < d.1))
    (hn : ∀ c ∈ m, c.1 ≠ a) : (insertCell a v m).Pairwise (fun c d => c.1 < d.1) := by
  induction m with
  | nil => simp [insertCell]
  | cons d m ih =>
    obtain ⟨hd, hm⟩ := List.pairwise_cons.mp hs
    by_cases h : a < d.1
    · rw [insertCell, if_pos h]
      refine List.pairwise_cons.mpr ⟨fun c hc => ?_, hs⟩
      rcases List.mem_cons.mp hc with rfl | hc
      · exact h
      · exact Nat.lt_trans h (hd c hc)
    · rw [insertCell, if_neg h]
      refine List.pairwise_cons.mpr ⟨fun c hc => ?_, ih hm (fun c hc => hn c (by simp [hc]))⟩
      rcases mem_insertCell.mp hc with rfl | hc
      · have := hn d (by simp); simp only; omega
      · exact hd c hc

/-- A write in bounds keeps the canonical form. -/
theorem wf_write {m : Memory} (h : m.wf) {a : Nat} (ha : a < memorySize) (v : Byte) : (m.write a v).wf := by
  by_cases hv : v = unlisted a
  · simpa only [write, hv, if_true] using wf_erase h a
  · have he := wf_erase h a
    rw [write, if_neg hv]
    refine ⟨pairwise_insertCell he.1 (not_mem_erase m a), fun c hc => ?_⟩
    rcases mem_insertCell.mp hc with rfl | hc
    · exact ⟨ha, hv⟩
    · exact he.2 c hc

/-- A bounds-checked store keeps the canonical form. -/
theorem wf_store {m : Memory} (h : m.wf) (a : Nat) (v : Byte) : (m.store a v).wf := by
  by_cases ha : a < memorySize
  · simpa [store, inBounds, ha] using wf_write h ha v
  · simpa [store, inBounds, ha] using h

/-- Consecutive stores keep the canonical form. -/
theorem wf_storeList {m : Memory} (h : m.wf) (a : Nat) (bs : List Byte) : (m.storeList a bs).wf := by
  induction bs generalizing m a with
  | nil => exact h
  | cons v vs ih => exact ih (wf_store h a v) (a + 1)

/-- Memory at its reset contents is in canonical form. -/
theorem wf_nil : wf [] := by simp [wf]

/-- What is not listed reads as the reset contents. -/
theorem read_of_not_listed {m : Memory} {a : Nat} (h : ∀ c ∈ m, c.1 ≠ a) : m.read a = unlisted a := by
  induction m with
  | nil => rfl
  | cons c m ih =>
    obtain ⟨b, v⟩ := c
    have hb : b ≠ a := h (b, v) (by simp)
    simpa [read, hb] using ih (fun c hc => h c (by simp [hc]))

end Sys2Proof.Machine.Memory
end

