-- ==== Sys2Proof/Laws/State.lean ====
section
/-! SUPPORT. What each update of the state does to each field, once, so that no proof unfolds a record
update. -/

namespace Sys2Proof.Machine

variable (s : State)

@[simp] theorem State.setReg_index (x : RegIdx) (v : Byte) : (s.setReg x v).index = s.index := rfl
@[simp] theorem State.setReg_pc (x : RegIdx) (v : Byte) : (s.setReg x v).pc = s.pc := rfl
@[simp] theorem State.setReg_stack (x : RegIdx) (v : Byte) : (s.setReg x v).stack = s.stack := rfl
@[simp] theorem State.setReg_sp (x : RegIdx) (v : Byte) : (s.setReg x v).sp = s.sp := rfl
@[simp] theorem State.setReg_dt (x : RegIdx) (v : Byte) : (s.setReg x v).dt = s.dt := rfl
@[simp] theorem State.setReg_st (x : RegIdx) (v : Byte) : (s.setReg x v).st = s.st := rfl
@[simp] theorem State.setReg_fb (x : RegIdx) (v : Byte) : (s.setReg x v).fb = s.fb := rfl
@[simp] theorem State.setReg_mem (x : RegIdx) (v : Byte) : (s.setReg x v).mem = s.mem := rfl
@[simp] theorem State.setReg_keys (x : RegIdx) (v : Byte) : (s.setReg x v).keys = s.keys := rfl
@[simp] theorem State.setReg_pendingKeys (x : RegIdx) (v : Byte) : (s.setReg x v).pendingKeys = s.pendingKeys := rfl
@[simp] theorem State.setReg_draws (x : RegIdx) (v : Byte) : (s.setReg x v).draws = s.draws := rfl
@[simp] theorem State.setReg_policies (x : RegIdx) (v : Byte) : (s.setReg x v).policies = s.policies := rfl

@[simp] theorem State.setIndex_regs (v : Word) : (s.setIndex v).regs = s.regs := rfl
@[simp] theorem State.setIndex_index (v : Word) : (s.setIndex v).index = v := rfl
@[simp] theorem State.setIndex_pc (v : Word) : (s.setIndex v).pc = s.pc := rfl
@[simp] theorem State.setIndex_stack (v : Word) : (s.setIndex v).stack = s.stack := rfl
@[simp] theorem State.setIndex_sp (v : Word) : (s.setIndex v).sp = s.sp := rfl
@[simp] theorem State.setIndex_dt (v : Word) : (s.setIndex v).dt = s.dt := rfl
@[simp] theorem State.setIndex_st (v : Word) : (s.setIndex v).st = s.st := rfl
@[simp] theorem State.setIndex_fb (v : Word) : (s.setIndex v).fb = s.fb := rfl
@[simp] theorem State.setIndex_mem (v : Word) : (s.setIndex v).mem = s.mem := rfl
@[simp] theorem State.setIndex_keys (v : Word) : (s.setIndex v).keys = s.keys := rfl
@[simp] theorem State.setIndex_pendingKeys (v : Word) : (s.setIndex v).pendingKeys = s.pendingKeys := rfl
@[simp] theorem State.setIndex_draws (v : Word) : (s.setIndex v).draws = s.draws := rfl
@[simp] theorem State.setIndex_policies (v : Word) : (s.setIndex v).policies = s.policies := rfl

@[simp] theorem State.setPc_regs (v : Word) : (s.setPc v).regs = s.regs := rfl
@[simp] theorem State.setPc_index (v : Word) : (s.setPc v).index = s.index := rfl
@[simp] theorem State.setPc_pc (v : Word) : (s.setPc v).pc = v := rfl
@[simp] theorem State.setPc_stack (v : Word) : (s.setPc v).stack = s.stack := rfl
@[simp] theorem State.setPc_sp (v : Word) : (s.setPc v).sp = s.sp := rfl
@[simp] theorem State.setPc_dt (v : Word) : (s.setPc v).dt = s.dt := rfl
@[simp] theorem State.setPc_st (v : Word) : (s.setPc v).st = s.st := rfl
@[simp] theorem State.setPc_fb (v : Word) : (s.setPc v).fb = s.fb := rfl
@[simp] theorem State.setPc_mem (v : Word) : (s.setPc v).mem = s.mem := rfl
@[simp] theorem State.setPc_keys (v : Word) : (s.setPc v).keys = s.keys := rfl
@[simp] theorem State.setPc_pendingKeys (v : Word) : (s.setPc v).pendingKeys = s.pendingKeys := rfl
@[simp] theorem State.setPc_draws (v : Word) : (s.setPc v).draws = s.draws := rfl
@[simp] theorem State.setPc_policies (v : Word) : (s.setPc v).policies = s.policies := rfl

@[simp] theorem State.setDt_regs (v : Byte) : (s.setDt v).regs = s.regs := rfl
@[simp] theorem State.setDt_index (v : Byte) : (s.setDt v).index = s.index := rfl
@[simp] theorem State.setDt_pc (v : Byte) : (s.setDt v).pc = s.pc := rfl
@[simp] theorem State.setDt_stack (v : Byte) : (s.setDt v).stack = s.stack := rfl
@[simp] theorem State.setDt_sp (v : Byte) : (s.setDt v).sp = s.sp := rfl
@[simp] theorem State.setDt_dt (v : Byte) : (s.setDt v).dt = v := rfl
@[simp] theorem State.setDt_st (v : Byte) : (s.setDt v).st = s.st := rfl
@[simp] theorem State.setDt_fb (v : Byte) : (s.setDt v).fb = s.fb := rfl
@[simp] theorem State.setDt_mem (v : Byte) : (s.setDt v).mem = s.mem := rfl
@[simp] theorem State.setDt_keys (v : Byte) : (s.setDt v).keys = s.keys := rfl
@[simp] theorem State.setDt_pendingKeys (v : Byte) : (s.setDt v).pendingKeys = s.pendingKeys := rfl
@[simp] theorem State.setDt_draws (v : Byte) : (s.setDt v).draws = s.draws := rfl
@[simp] theorem State.setDt_policies (v : Byte) : (s.setDt v).policies = s.policies := rfl

@[simp] theorem State.setSt_regs (v : Byte) : (s.setSt v).regs = s.regs := rfl
@[simp] theorem State.setSt_index (v : Byte) : (s.setSt v).index = s.index := rfl
@[simp] theorem State.setSt_pc (v : Byte) : (s.setSt v).pc = s.pc := rfl
@[simp] theorem State.setSt_stack (v : Byte) : (s.setSt v).stack = s.stack := rfl
@[simp] theorem State.setSt_sp (v : Byte) : (s.setSt v).sp = s.sp := rfl
@[simp] theorem State.setSt_dt (v : Byte) : (s.setSt v).dt = s.dt := rfl
@[simp] theorem State.setSt_st (v : Byte) : (s.setSt v).st = v := rfl
@[simp] theorem State.setSt_fb (v : Byte) : (s.setSt v).fb = s.fb := rfl
@[simp] theorem State.setSt_mem (v : Byte) : (s.setSt v).mem = s.mem := rfl
@[simp] theorem State.setSt_keys (v : Byte) : (s.setSt v).keys = s.keys := rfl
@[simp] theorem State.setSt_pendingKeys (v : Byte) : (s.setSt v).pendingKeys = s.pendingKeys := rfl
@[simp] theorem State.setSt_draws (v : Byte) : (s.setSt v).draws = s.draws := rfl
@[simp] theorem State.setSt_policies (v : Byte) : (s.setSt v).policies = s.policies := rfl

@[simp] theorem State.setFb_regs (v : Framebuffer) : (s.setFb v).regs = s.regs := rfl
@[simp] theorem State.setFb_index (v : Framebuffer) : (s.setFb v).index = s.index := rfl
@[simp] theorem State.setFb_pc (v : Framebuffer) : (s.setFb v).pc = s.pc := rfl
@[simp] theorem State.setFb_stack (v : Framebuffer) : (s.setFb v).stack = s.stack := rfl
@[simp] theorem State.setFb_sp (v : Framebuffer) : (s.setFb v).sp = s.sp := rfl
@[simp] theorem State.setFb_dt (v : Framebuffer) : (s.setFb v).dt = s.dt := rfl
@[simp] theorem State.setFb_st (v : Framebuffer) : (s.setFb v).st = s.st := rfl
@[simp] theorem State.setFb_fb (v : Framebuffer) : (s.setFb v).fb = v := rfl
@[simp] theorem State.setFb_mem (v : Framebuffer) : (s.setFb v).mem = s.mem := rfl
@[simp] theorem State.setFb_keys (v : Framebuffer) : (s.setFb v).keys = s.keys := rfl
@[simp] theorem State.setFb_pendingKeys (v : Framebuffer) : (s.setFb v).pendingKeys = s.pendingKeys := rfl
@[simp] theorem State.setFb_draws (v : Framebuffer) : (s.setFb v).draws = s.draws := rfl
@[simp] theorem State.setFb_policies (v : Framebuffer) : (s.setFb v).policies = s.policies := rfl

@[simp] theorem State.setMem_regs (v : Memory) : (s.setMem v).regs = s.regs := rfl
@[simp] theorem State.setMem_index (v : Memory) : (s.setMem v).index = s.index := rfl
@[simp] theorem State.setMem_pc (v : Memory) : (s.setMem v).pc = s.pc := rfl
@[simp] theorem State.setMem_stack (v : Memory) : (s.setMem v).stack = s.stack := rfl
@[simp] theorem State.setMem_sp (v : Memory) : (s.setMem v).sp = s.sp := rfl
@[simp] theorem State.setMem_dt (v : Memory) : (s.setMem v).dt = s.dt := rfl
@[simp] theorem State.setMem_st (v : Memory) : (s.setMem v).st = s.st := rfl
@[simp] theorem State.setMem_fb (v : Memory) : (s.setMem v).fb = s.fb := rfl
@[simp] theorem State.setMem_mem (v : Memory) : (s.setMem v).mem = v := rfl
@[simp] theorem State.setMem_keys (v : Memory) : (s.setMem v).keys = s.keys := rfl
@[simp] theorem State.setMem_pendingKeys (v : Memory) : (s.setMem v).pendingKeys = s.pendingKeys := rfl
@[simp] theorem State.setMem_draws (v : Memory) : (s.setMem v).draws = s.draws := rfl
@[simp] theorem State.setMem_policies (v : Memory) : (s.setMem v).policies = s.policies := rfl

@[simp] theorem State.setKeys_regs (v : Keypad) : (s.setKeys v).regs = s.regs := rfl
@[simp] theorem State.setKeys_index (v : Keypad) : (s.setKeys v).index = s.index := rfl
@[simp] theorem State.setKeys_pc (v : Keypad) : (s.setKeys v).pc = s.pc := rfl
@[simp] theorem State.setKeys_stack (v : Keypad) : (s.setKeys v).stack = s.stack := rfl
@[simp] theorem State.setKeys_sp (v : Keypad) : (s.setKeys v).sp = s.sp := rfl
@[simp] theorem State.setKeys_dt (v : Keypad) : (s.setKeys v).dt = s.dt := rfl
@[simp] theorem State.setKeys_st (v : Keypad) : (s.setKeys v).st = s.st := rfl
@[simp] theorem State.setKeys_fb (v : Keypad) : (s.setKeys v).fb = s.fb := rfl
@[simp] theorem State.setKeys_mem (v : Keypad) : (s.setKeys v).mem = s.mem := rfl
@[simp] theorem State.setKeys_keys (v : Keypad) : (s.setKeys v).keys = v := rfl
@[simp] theorem State.setKeys_pendingKeys (v : Keypad) : (s.setKeys v).pendingKeys = s.pendingKeys := rfl
@[simp] theorem State.setKeys_draws (v : Keypad) : (s.setKeys v).draws = s.draws := rfl
@[simp] theorem State.setKeys_policies (v : Keypad) : (s.setKeys v).policies = s.policies := rfl

@[simp] theorem State.advancePc_regs : (s.advancePc).regs = s.regs := rfl
@[simp] theorem State.advancePc_index : (s.advancePc).index = s.index := rfl
@[simp] theorem State.advancePc_pc : (s.advancePc).pc = s.pc + 2 := rfl
@[simp] theorem State.advancePc_stack : (s.advancePc).stack = s.stack := rfl
@[simp] theorem State.advancePc_sp : (s.advancePc).sp = s.sp := rfl
@[simp] theorem State.advancePc_dt : (s.advancePc).dt = s.dt := rfl
@[simp] theorem State.advancePc_st : (s.advancePc).st = s.st := rfl
@[simp] theorem State.advancePc_fb : (s.advancePc).fb = s.fb := rfl
@[simp] theorem State.advancePc_mem : (s.advancePc).mem = s.mem := rfl
@[simp] theorem State.advancePc_keys : (s.advancePc).keys = s.keys := rfl
@[simp] theorem State.advancePc_pendingKeys : (s.advancePc).pendingKeys = s.pendingKeys := rfl
@[simp] theorem State.advancePc_draws : (s.advancePc).draws = s.draws := rfl
@[simp] theorem State.advancePc_policies : (s.advancePc).policies = s.policies := rfl

@[simp] theorem State.retreatPc_regs : (s.retreatPc).regs = s.regs := rfl
@[simp] theorem State.retreatPc_index : (s.retreatPc).index = s.index := rfl
@[simp] theorem State.retreatPc_pc : (s.retreatPc).pc = s.pc - 2 := rfl
@[simp] theorem State.retreatPc_stack : (s.retreatPc).stack = s.stack := rfl
@[simp] theorem State.retreatPc_sp : (s.retreatPc).sp = s.sp := rfl
@[simp] theorem State.retreatPc_dt : (s.retreatPc).dt = s.dt := rfl
@[simp] theorem State.retreatPc_st : (s.retreatPc).st = s.st := rfl
@[simp] theorem State.retreatPc_fb : (s.retreatPc).fb = s.fb := rfl
@[simp] theorem State.retreatPc_mem : (s.retreatPc).mem = s.mem := rfl
@[simp] theorem State.retreatPc_keys : (s.retreatPc).keys = s.keys := rfl
@[simp] theorem State.retreatPc_pendingKeys : (s.retreatPc).pendingKeys = s.pendingKeys := rfl
@[simp] theorem State.retreatPc_draws : (s.retreatPc).draws = s.draws := rfl
@[simp] theorem State.retreatPc_policies : (s.retreatPc).policies = s.policies := rfl

@[simp] theorem State.push_regs (v : Word) : (s.push v).regs = s.regs := rfl
@[simp] theorem State.push_index (v : Word) : (s.push v).index = s.index := rfl
@[simp] theorem State.push_pc (v : Word) : (s.push v).pc = s.pc := rfl
@[simp] theorem State.push_stack (v : Word) : (s.push v).stack = s.stack.setIfInBounds s.sp.val v := rfl
@[simp] theorem State.push_dt (v : Word) : (s.push v).dt = s.dt := rfl
@[simp] theorem State.push_st (v : Word) : (s.push v).st = s.st := rfl
@[simp] theorem State.push_fb (v : Word) : (s.push v).fb = s.fb := rfl
@[simp] theorem State.push_mem (v : Word) : (s.push v).mem = s.mem := rfl
@[simp] theorem State.push_keys (v : Word) : (s.push v).keys = s.keys := rfl
@[simp] theorem State.push_pendingKeys (v : Word) : (s.push v).pendingKeys = s.pendingKeys := rfl
@[simp] theorem State.push_draws (v : Word) : (s.push v).draws = s.draws := rfl
@[simp] theorem State.push_policies (v : Word) : (s.push v).policies = s.policies := rfl

@[simp] theorem State.pop_regs : (s.pop).regs = s.regs := rfl
@[simp] theorem State.pop_index : (s.pop).index = s.index := rfl
@[simp] theorem State.pop_pc : (s.pop).pc = s.pc := rfl
@[simp] theorem State.pop_stack : (s.pop).stack = s.stack := rfl
@[simp] theorem State.pop_dt : (s.pop).dt = s.dt := rfl
@[simp] theorem State.pop_st : (s.pop).st = s.st := rfl
@[simp] theorem State.pop_fb : (s.pop).fb = s.fb := rfl
@[simp] theorem State.pop_mem : (s.pop).mem = s.mem := rfl
@[simp] theorem State.pop_keys : (s.pop).keys = s.keys := rfl
@[simp] theorem State.pop_pendingKeys : (s.pop).pendingKeys = s.pendingKeys := rfl
@[simp] theorem State.pop_draws : (s.pop).draws = s.draws := rfl
@[simp] theorem State.pop_policies : (s.pop).policies = s.policies := rfl

@[simp] theorem State.advanceDraw_regs : (s.advanceDraw).regs = s.regs := rfl
@[simp] theorem State.advanceDraw_index : (s.advanceDraw).index = s.index := rfl
@[simp] theorem State.advanceDraw_pc : (s.advanceDraw).pc = s.pc := rfl
@[simp] theorem State.advanceDraw_stack : (s.advanceDraw).stack = s.stack := rfl
@[simp] theorem State.advanceDraw_sp : (s.advanceDraw).sp = s.sp := rfl
@[simp] theorem State.advanceDraw_dt : (s.advanceDraw).dt = s.dt := rfl
@[simp] theorem State.advanceDraw_st : (s.advanceDraw).st = s.st := rfl
@[simp] theorem State.advanceDraw_fb : (s.advanceDraw).fb = s.fb := rfl
@[simp] theorem State.advanceDraw_mem : (s.advanceDraw).mem = s.mem := rfl
@[simp] theorem State.advanceDraw_keys : (s.advanceDraw).keys = s.keys := rfl
@[simp] theorem State.advanceDraw_pendingKeys : (s.advanceDraw).pendingKeys = s.pendingKeys := rfl
@[simp] theorem State.advanceDraw_draws : (s.advanceDraw).draws = s.draws + 1 := rfl
@[simp] theorem State.advanceDraw_policies : (s.advanceDraw).policies = s.policies := rfl

@[simp] theorem State.storeBytes_regs (a : Nat) (bs : List Byte) : (s.storeBytes a bs).regs = s.regs := rfl
@[simp] theorem State.storeBytes_index (a : Nat) (bs : List Byte) : (s.storeBytes a bs).index = s.index := rfl
@[simp] theorem State.storeBytes_pc (a : Nat) (bs : List Byte) : (s.storeBytes a bs).pc = s.pc := rfl
@[simp] theorem State.storeBytes_stack (a : Nat) (bs : List Byte) : (s.storeBytes a bs).stack = s.stack := rfl
@[simp] theorem State.storeBytes_sp (a : Nat) (bs : List Byte) : (s.storeBytes a bs).sp = s.sp := rfl
@[simp] theorem State.storeBytes_dt (a : Nat) (bs : List Byte) : (s.storeBytes a bs).dt = s.dt := rfl
@[simp] theorem State.storeBytes_st (a : Nat) (bs : List Byte) : (s.storeBytes a bs).st = s.st := rfl
@[simp] theorem State.storeBytes_fb (a : Nat) (bs : List Byte) : (s.storeBytes a bs).fb = s.fb := rfl
@[simp] theorem State.storeBytes_mem (a : Nat) (bs : List Byte) : (s.storeBytes a bs).mem = s.mem.storeList a bs := rfl
@[simp] theorem State.storeBytes_keys (a : Nat) (bs : List Byte) : (s.storeBytes a bs).keys = s.keys := rfl
@[simp] theorem State.storeBytes_pendingKeys (a : Nat) (bs : List Byte) : (s.storeBytes a bs).pendingKeys = s.pendingKeys := rfl
@[simp] theorem State.storeBytes_draws (a : Nat) (bs : List Byte) : (s.storeBytes a bs).draws = s.draws := rfl
@[simp] theorem State.storeBytes_policies (a : Nat) (bs : List Byte) : (s.storeBytes a bs).policies = s.policies := rfl

@[simp] theorem State.tickTimers_regs : (s.tickTimers).regs = s.regs := rfl
@[simp] theorem State.tickTimers_index : (s.tickTimers).index = s.index := rfl
@[simp] theorem State.tickTimers_pc : (s.tickTimers).pc = s.pc := rfl
@[simp] theorem State.tickTimers_stack : (s.tickTimers).stack = s.stack := rfl
@[simp] theorem State.tickTimers_sp : (s.tickTimers).sp = s.sp := rfl
@[simp] theorem State.tickTimers_dt : (s.tickTimers).dt = decrement s.dt := rfl
@[simp] theorem State.tickTimers_st : (s.tickTimers).st = decrement s.st := rfl
@[simp] theorem State.tickTimers_fb : (s.tickTimers).fb = s.fb := rfl
@[simp] theorem State.tickTimers_mem : (s.tickTimers).mem = s.mem := rfl
@[simp] theorem State.tickTimers_keys : (s.tickTimers).keys = s.keys := rfl
@[simp] theorem State.tickTimers_pendingKeys : (s.tickTimers).pendingKeys = s.pendingKeys := rfl
@[simp] theorem State.tickTimers_draws : (s.tickTimers).draws = s.draws := rfl
@[simp] theorem State.tickTimers_policies : (s.tickTimers).policies = s.policies := rfl

@[simp] theorem State.setReg_regs (x : RegIdx) (v : Byte) : (s.setReg x v).regs = s.regs.set x.val v := rfl
@[simp] theorem State.push_sp (v : Word) : (s.push v).sp.val = min (s.sp.val + 1) 16 := rfl
@[simp] theorem State.pop_sp : s.pop.sp.val = s.sp.val - 1 := rfl

@[simp] theorem State.reg_setIndex (v : Word) (z : RegIdx) : (s.setIndex v).reg z = s.reg z := rfl
@[simp] theorem State.reg_setPc (v : Word) (z : RegIdx) : (s.setPc v).reg z = s.reg z := rfl
@[simp] theorem State.reg_setDt (v : Byte) (z : RegIdx) : (s.setDt v).reg z = s.reg z := rfl
@[simp] theorem State.reg_setSt (v : Byte) (z : RegIdx) : (s.setSt v).reg z = s.reg z := rfl
@[simp] theorem State.reg_setFb (v : Framebuffer) (z : RegIdx) : (s.setFb v).reg z = s.reg z := rfl
@[simp] theorem State.reg_setMem (v : Memory) (z : RegIdx) : (s.setMem v).reg z = s.reg z := rfl
@[simp] theorem State.reg_setKeys (v : Keypad) (z : RegIdx) : (s.setKeys v).reg z = s.reg z := rfl
@[simp] theorem State.reg_advancePc (z : RegIdx) : (s.advancePc).reg z = s.reg z := rfl
@[simp] theorem State.reg_retreatPc (z : RegIdx) : (s.retreatPc).reg z = s.reg z := rfl
@[simp] theorem State.reg_push (v : Word) (z : RegIdx) : (s.push v).reg z = s.reg z := rfl
@[simp] theorem State.reg_pop (z : RegIdx) : (s.pop).reg z = s.reg z := rfl
@[simp] theorem State.reg_advanceDraw (z : RegIdx) : (s.advanceDraw).reg z = s.reg z := rfl
@[simp] theorem State.reg_storeBytes (a : Nat) (bs : List Byte) (z : RegIdx) : (s.storeBytes a bs).reg z = s.reg z := rfl
@[simp] theorem State.reg_tickTimers (z : RegIdx) : (s.tickTimers).reg z = s.reg z := rfl

end Sys2Proof.Machine
end

