-- ==== Sys2Proof/Laws/Ops.lean ====
section
/-! SUPPORT. One lemma per shared operation, saying everything it does. -/

namespace Sys2Proof.Machine

/-- A register read after a register write. -/
theorem reg_setReg (s : State) (x z : RegIdx) (v : Byte) : (s.setReg x v).reg z = if z = x then v else s.reg z := by
  by_cases h : z = x
  · subst h; simp [State.reg]
  · have : x.val ≠ z.val := fun e => h (Fin.ext e.symm)
    simp [State.reg, h, Vector.getElem_set_ne, this]

@[simp] theorem reg_setReg_self (s : State) (x : RegIdx) (v : Byte) : (s.setReg x v).reg x = v := by
  simp [reg_setReg]

theorem reg_setReg_other (s : State) {x z : RegIdx} (v : Byte) (h : z ≠ x) : (s.setReg x v).reg z = s.reg z := by
  simp [reg_setReg, h]

/-- Two register files that read alike are the same. -/
theorem regs_ext {s t : State} (h : ∀ z, t.reg z = s.reg z) : t.regs = s.regs :=
  Vector.ext fun k hk => h ⟨k, hk⟩

/-- A register write changes the register file only. -/
theorem setReg_frame (s : State) (x : RegIdx) (v : Byte) : s.setReg x v = { s with regs := (s.setReg x v).regs } := rfl

/-- A skip writes pc only: past the next word when the condition holds. -/
theorem skipIf_eq (s : State) (c : Bool) : s.skipIf c = { s with pc := if c then s.pc + 2 else s.pc } := by
  cases c <;> rfl

/-- What a push leaves in each entry when the stack is not full. -/
theorem push_entry (s : State) (v : Word) (k : Fin 16) (_h : s.sp.val < 16) :
    (s.push v).stack[k] = if k.val = s.sp.val then v else s.stack[k] := by
  by_cases hk : k.val = s.sp.val
  · simp [hk]
  · simp [hk, Ne.symm hk]

/-- The entry on top is the one at SP - 1. -/
theorem top_eq (s : State) (k : Fin 16) (h : k.val + 1 = s.sp.val) : s.top = s.stack[k] := by
  have : s.sp.val - 1 = k.val := by omega
  simp [State.top, this]

/-- The stack pointer comes back after a push and a pop. -/
theorem pop_push_sp (s : State) (v : Word) (h : s.sp.val < 16) : (s.push v).pop.sp = s.sp := by
  apply Fin.ext; simp; omega

/-- The flag and the result, whichever order the operands are read in. -/
theorem reg_flagThenResult (order : AluFlagAlias) (flag : Byte) (x z : RegIdx) (result : State → Byte) (s : State) :
    (flagThenResult order flag x result s).reg z =
      if z = x then (match order with | .sequential => result (s.setReg vF flag) | .snapshot => result s)
      else if z = vF then flag else s.reg z := by
  cases order <;> simp [flagThenResult, reg_setReg]

/-- The two assignments change the register file only. -/
theorem flagThenResult_frame (order : AluFlagAlias) (flag : Byte) (x : RegIdx) (result : State → Byte) (s : State) :
    flagThenResult order flag x result s = { s with regs := (flagThenResult order flag x result s).regs } := by
  cases order <;> rfl

/-- A timer's countdown: one less, floor at zero (60_exceptions.md R238). -/
theorem decrement_toNat (v : Byte) : (decrement v).toNat = v.toNat - 1 := by
  by_cases h : v = 0
  · simp [decrement, h]
  · have hv : v.toNat ≠ 0 := fun e => h (BitVec.eq_of_toNat_eq (by simpa using e))
    have := v.isLt
    have h1 : (1 : Byte).toNat = 1 := rfl
    simp only [decrement, h, if_false, BitVec.toNat_sub, h1]
    omega

/-- The low byte of the 9-bit sum is the sum modulo 256. -/
theorem sum9_low (a b : Byte) : (sum9 a b).setWidth 8 = a + b := by
  apply BitVec.eq_of_toNat_eq
  simp [sum9]

/-- The 9-bit sum does not wrap. -/
theorem sum9_toNat (a b : Byte) : (sum9 a b).toNat = a.toNat + b.toNat := by
  have := a.isLt; have := b.isLt
  simp only [sum9, BitVec.toNat_add, BitVec.toNat_setWidth]; omega

theorem loadReg_frame (s : State) (k a : Nat) : s.loadReg k a = { s with regs := (s.loadReg k a).regs } := by
  unfold State.loadReg; split <;> [split; skip] <;> rfl

/-- A block of register loads changes the register file only. -/
theorem loadRegs_frame (a n : Nat) (s : State) : State.loadRegs a n s = { s with regs := (State.loadRegs a n s).regs } := by
  induction n with
  | zero => rfl
  | succ n ih => rw [State.loadRegs, loadReg_frame, ih]

/-- What a block of register loads leaves in each register: memory's byte for each register loaded whose
address is in bounds, the old value in every other. -/
theorem reg_loadRegs (a n : Nat) (s : State) (z : RegIdx) (hn : n ≤ 16) :
    (State.loadRegs a n s).reg z = if z.val < n ∧ a + z.val < memorySize then s.mem.read (a + z.val) else s.reg z := by
  induction n with
  | zero => simp [State.loadRegs]
  | succ n ih =>
    have hm : (State.loadRegs a n s).mem = s.mem := by rw [loadRegs_frame]
    have h16 : n < 16 := hn
    have ih := ih (Nat.le_of_lt h16)
    by_cases hz : z.val = n
    · have e : z = ⟨n, h16⟩ := Fin.ext hz
      by_cases hb : a + n < memorySize
      · simp [State.loadRegs, State.loadReg, h16, inBounds, hb, hm, e]
      · simp [State.loadRegs, State.loadReg, h16, inBounds, hb, ih, hz]
    · have hne : z ≠ ⟨n, h16⟩ := fun e => hz (congrArg Fin.val e)
      have hlt : z.val < n + 1 ↔ z.val < n := by omega
      by_cases hb : a + n < memorySize
      · simp [State.loadRegs, State.loadReg, h16, inBounds, hb, reg_setReg, hne, ih, hlt]
      · simp [State.loadRegs, State.loadReg, h16, inBounds, hb, ih, hlt]

/-- The list of the first registers, read by position. -/
theorem firstRegs_getD (s : State) (n : Nat) (k : RegIdx) (h : k.val < n) : (s.firstRegs n).getD k.val 0 = s.reg k := by
  simp [State.firstRegs, State.reg, List.getD, h]

theorem firstRegs_length (s : State) (n : Nat) (h : n ≤ 16) : (s.firstRegs n).length = n := by
  simp [State.firstRegs, h]

theorem keyPressed_fin (s : State) (k : Fin 16) : s.keyPressed k.val = s.keys[k] := by
  simp [State.keyPressed]

/-- The least pressed key, when one is pressed. -/
theorem leastKey_eq_some (s : State) (k : Fin 16) (hk : s.keys[k] = true) (hl : ∀ j : Fin 16, j < k → s.keys[j] = false) :
    s.leastKey = some k.val := by
  rw [State.leastKey, List.find?_range_eq_some]
  refine ⟨by rw [keyPressed_fin]; exact hk, by simp, fun j hj => ?_⟩
  have := hl ⟨j, by omega⟩ hj
  rw [← keyPressed_fin] at this
  simpa using this

/-- No key is pressed. -/
theorem leastKey_eq_none (s : State) (h : ∀ k : Fin 16, s.keys[k] = false) : s.leastKey = none := by
  rw [State.leastKey, List.find?_range_eq_none]
  intro k hk
  have := h ⟨k, hk⟩
  rw [← keyPressed_fin] at this
  simpa using this

end Sys2Proof.Machine
end

