-- ==== Sys2Proof/Laws/Cycle.lean ====
section
/-! SUPPORT. What the step around a handler does, once: the two branches of the fetch, the host's move, the
bytes a fetch reads. -/

namespace Sys2Proof.Machine

theorem fetchInBounds_iff (s : State) : s.fetchInBounds = true ↔ s.pc.toNat ≤ 0x0FFE := by
  simp only [State.fetchInBounds, decide_eq_true_eq]
  unfold memorySize; omega

/-- A fetch in bounds: the handler runs on the pre-incremented pc, then the timers tick (40_cycle.md R100). -/
theorem cycleWith_in (p : FetchOobPolicy) {s : State} (h : s.pc.toNat ≤ 0x0FFE) :
    cycleWith p s = mapNext State.tickTimers (exec (decode s.fetch) s.advancePc) := by
  unfold cycleWith; rw [if_pos ((fetchInBounds_iff s).mpr h)]

/-- A fetch out of bounds under `nop`: pc advances and the timers tick (40_cycle.md R102). -/
theorem cycleWith_out_nop {s : State} (h : ¬ s.pc.toNat ≤ 0x0FFE) :
    cycleWith .nop s = .next s.advancePc.tickTimers := by
  unfold cycleWith; rw [if_neg (fun e => h ((fetchInBounds_iff s).mp e))]

/-- A fetch out of bounds under `fault`: the model-level fault (60_exceptions.md R233). -/
theorem cycleWith_out_fault {s : State} (h : ¬ s.pc.toNat ≤ 0x0FFE) :
    cycleWith .fault s = .fault (.fetchOutOfBounds s.pc) := by
  unfold cycleWith; rw [if_neg (fun e => h ((fetchInBounds_iff s).mp e))]

/-- The same three of `cycle`, by the policy the block was constructed with. -/
theorem cycle_in {s : State} (h : s.pc.toNat ≤ 0x0FFE) :
    cycle s = mapNext State.tickTimers (exec (decode s.fetch) s.advancePc) := cycleWith_in _ h

theorem cycle_out_nop {s : State} (h : ¬ s.pc.toNat ≤ 0x0FFE) (hp : s.policies.fetchOob = .nop) :
    cycle s = .next s.advancePc.tickTimers := by
  rw [cycle, hp, cycleWith_out_nop h]

theorem cycle_out_fault {s : State} (h : ¬ s.pc.toNat ≤ 0x0FFE) (hp : s.policies.fetchOob = .fault) :
    cycle s = .fault (.fetchOutOfBounds s.pc) := by
  rw [cycle, hp, cycleWith_out_fault h]

/-- The fetched word as a number: the byte at pc is the high one (20_memory.md R55). -/
theorem fetch_toNat (s : State) :
    s.fetch.toNat = 256 * (s.mem.read s.pc.toNat).toNat + (s.mem.read (s.pc.toNat + 1)).toNat :=
  wordOfBytes_toNat _ _

/-- The host's move writes the keypad and its own list only. -/
theorem hostKeys_frame (s : State) :
    s.hostKeys = { s with keys := s.hostKeys.keys, pendingKeys := s.hostKeys.pendingKeys } := by
  unfold State.hostKeys; split <;> rfl

@[simp] theorem hostKeys_pc (s : State) : s.hostKeys.pc = s.pc := by rw [hostKeys_frame]

@[simp] theorem hostKeys_policies (s : State) : s.hostKeys.policies = s.policies := by rw [hostKeys_frame]

/-- An idle host changes nothing. -/
theorem hostKeys_idle {s : State} (h : s.pendingKeys = []) : s.hostKeys = s := by
  unfold State.hostKeys; rw [h]

/-- Construction is reset with the given policies, keypad and FONT (70_reset_and_hazards.md R260). -/
theorem construct_eq (p : Params) (keys : Keypad) : State.construct p keys =
    { State.reset with keys := keys, policies := p.policies, mem := Memory.storeList [] 0x050 p.font.toList } := rfl

theorem mapNext_eq_next {f : State → State} {r : Result} {t : State} (h : mapNext f r = .next t) :
    ∃ u, r = .next u ∧ f u = t := by
  cases r with
  | next u => exact ⟨u, rfl, by simpa [mapNext] using h⟩
  | fault _ => simp [mapNext] at h
  | refused _ => simp [mapNext] at h

end Sys2Proof.Machine
end

