-- ==== Sys2Proof/Laws/PerInstr.lean ====
section
/-! SUPPORT. Claims made per instruction. EncodingRow: the canonical word of a well-formed instruction lies in
its own row of the opcode map (30_encoding.md R75), and a NOP's word is one that R77 lists. -/

namespace Sys2Proof.Laws.EncodingRow

/-- The claim about one instruction. -/
def Statement (i : Instr) : Prop :=
  i.wellFormed = true →
    (i.mnemonic = "NOP" ∧ unrecognised (encode i) = true) ∨
      ∃ row ∈ opcodeMap, row.mnemonic = i.mnemonic ∧ encode i &&& row.mask = row.pattern

/-- An instruction whose word lies in a row of the map that carries its mnemonic. -/
theorem of_row {i : Instr} (row : OpcodeRow) (hrow : row ∈ opcodeMap) (hname : row.mnemonic = i.mnemonic)
    (h : encode i &&& row.mask = row.pattern) : Statement i :=
  fun _ => Or.inr ⟨row, hrow, hname, h⟩

/-- A row whose mask is 0xF000: the high digit decides. -/
theorem in_high {w p : Word} (h : w.toNat / 4096 * 4096 = p.toNat) : w &&& 0xF000 = p :=
  BitVec.eq_of_toNat_eq ((mask_high_toNat w).trans h)

/-- A row whose mask is 0xF00F: the high and the low digit decide. -/
theorem in_high_low {w p : Word} (h : w.toNat / 4096 * 4096 + w.toNat % 16 = p.toNat) : w &&& 0xF00F = p :=
  BitVec.eq_of_toNat_eq ((mask_high_low_toNat w).trans h)

/-- A row whose mask is 0xF0FF: the high digit and the low byte decide. -/
theorem in_high_byte {w p : Word} (h : w.toNat / 4096 * 4096 + w.toNat % 256 = p.toNat) : w &&& 0xF0FF = p :=
  BitVec.eq_of_toNat_eq ((mask_high_byte_toNat w).trans h)

theorem cls : Statement .cls := of_row ⟨"CLS", 0xF00F, 0x0000⟩ (by decide) rfl (by decide)
theorem ret : Statement .ret := of_row ⟨"RET", 0xF00F, 0x000E⟩ (by decide) rfl (by decide)
theorem jp (nnn : BitVec 12) : Statement (.jp nnn) :=
  of_row ⟨"JP_NNN", 0xF000, 0x1000⟩ (by decide) rfl (in_high (by simp [encode, wordNNN_toNat]; omega))
theorem call (nnn : BitVec 12) : Statement (.call nnn) :=
  of_row ⟨"CALL_NNN", 0xF000, 0x2000⟩ (by decide) rfl (in_high (by simp [encode, wordNNN_toNat]; omega))
theorem seImm (x : RegIdx) (kk : Byte) : Statement (.seImm x kk) :=
  of_row ⟨"SE_Vx__KK", 0xF000, 0x3000⟩ (by decide) rfl (in_high (by simp [encode, wordXKK_toNat]; omega))
theorem sneImm (x : RegIdx) (kk : Byte) : Statement (.sneImm x kk) :=
  of_row ⟨"SNE_Vx__KK", 0xF000, 0x4000⟩ (by decide) rfl (in_high (by simp [encode, wordXKK_toNat]; omega))
theorem seReg (x y : RegIdx) : Statement (.seReg x y) :=
  of_row ⟨"SE_Vx__Vy", 0xF000, 0x5000⟩ (by decide) rfl (in_high (by simp [encode, wordXYN_toNat]; omega))
theorem ldImm (x : RegIdx) (kk : Byte) : Statement (.ldImm x kk) :=
  of_row ⟨"LD_Vx__KK", 0xF000, 0x6000⟩ (by decide) rfl (in_high (by simp [encode, wordXKK_toNat]; omega))
theorem addImm (x : RegIdx) (kk : Byte) : Statement (.addImm x kk) :=
  of_row ⟨"ADD_Vx__KK", 0xF000, 0x7000⟩ (by decide) rfl (in_high (by simp [encode, wordXKK_toNat]; omega))
theorem ldReg (x y : RegIdx) : Statement (.ldReg x y) :=
  of_row ⟨"LD_Vx__Vy", 0xF00F, 0x8000⟩ (by decide) rfl (in_high_low (by simp [encode, wordXYN_toNat]; omega))
theorem orReg (x y : RegIdx) : Statement (.orReg x y) :=
  of_row ⟨"OR_Vx__Vy", 0xF00F, 0x8001⟩ (by decide) rfl (in_high_low (by simp [encode, wordXYN_toNat]; omega))
theorem andReg (x y : RegIdx) : Statement (.andReg x y) :=
  of_row ⟨"AND_Vx__Vy", 0xF00F, 0x8002⟩ (by decide) rfl (in_high_low (by simp [encode, wordXYN_toNat]; omega))
theorem xorReg (x y : RegIdx) : Statement (.xorReg x y) :=
  of_row ⟨"XOR_Vx__Vy", 0xF00F, 0x8003⟩ (by decide) rfl (in_high_low (by simp [encode, wordXYN_toNat]; omega))
theorem addReg (x y : RegIdx) : Statement (.addReg x y) :=
  of_row ⟨"ADD_Vx__Vy", 0xF00F, 0x8004⟩ (by decide) rfl (in_high_low (by simp [encode, wordXYN_toNat]; omega))
theorem sub (x y : RegIdx) : Statement (.sub x y) :=
  of_row ⟨"SUB_Vx__Vy", 0xF00F, 0x8005⟩ (by decide) rfl (in_high_low (by simp [encode, wordXYN_toNat]; omega))
theorem shr (x : RegIdx) : Statement (.shr x) :=
  of_row ⟨"SHR_Vx", 0xF00F, 0x8006⟩ (by decide) rfl (in_high_low (by simp [encode, wordXKK_toNat]; omega))
theorem subn (x y : RegIdx) : Statement (.subn x y) :=
  of_row ⟨"SUBN_Vx__Vy", 0xF00F, 0x8007⟩ (by decide) rfl (in_high_low (by simp [encode, wordXYN_toNat]; omega))
theorem shl (x : RegIdx) : Statement (.shl x) :=
  of_row ⟨"SHL_Vx", 0xF00F, 0x800E⟩ (by decide) rfl (in_high_low (by simp [encode, wordXKK_toNat]; omega))
theorem sneReg (x y : RegIdx) : Statement (.sneReg x y) :=
  of_row ⟨"SNE_Vx__Vy", 0xF000, 0x9000⟩ (by decide) rfl (in_high (by simp [encode, wordXYN_toNat]; omega))
theorem ldI (nnn : BitVec 12) : Statement (.ldI nnn) :=
  of_row ⟨"LD_I__NNN", 0xF000, 0xA000⟩ (by decide) rfl (in_high (by simp [encode, wordNNN_toNat]; omega))
theorem jpV0 (nnn : BitVec 12) : Statement (.jpV0 nnn) :=
  of_row ⟨"JP_V0__NNN", 0xF000, 0xB000⟩ (by decide) rfl (in_high (by simp [encode, wordNNN_toNat]; omega))
theorem rnd (x : RegIdx) (kk : Byte) : Statement (.rnd x kk) :=
  of_row ⟨"RND_Vx__KK", 0xF000, 0xC000⟩ (by decide) rfl (in_high (by simp [encode, wordXKK_toNat]; omega))
theorem drw (x y : RegIdx) (n : BitVec 4) : Statement (.drw x y n) :=
  of_row ⟨"DRW_Vx__Vy__N", 0xF000, 0xD000⟩ (by decide) rfl (in_high (by simp [encode, wordXYN_toNat]; omega))
theorem skp (x : RegIdx) : Statement (.skp x) :=
  of_row ⟨"SKP_Vx", 0xF00F, 0xE00E⟩ (by decide) rfl (in_high_low (by simp [encode, wordXKK_toNat]; omega))
theorem sknp (x : RegIdx) : Statement (.sknp x) :=
  of_row ⟨"SKNP_Vx", 0xF00F, 0xE001⟩ (by decide) rfl (in_high_low (by simp [encode, wordXKK_toNat]; omega))
theorem ldVxDt (x : RegIdx) : Statement (.ldVxDt x) :=
  of_row ⟨"LD_Vx__DT", 0xF0FF, 0xF007⟩ (by decide) rfl (in_high_byte (by simp [encode, wordXKK_toNat]; omega))
theorem ldVxK (x : RegIdx) : Statement (.ldVxK x) :=
  of_row ⟨"LD_Vx__K", 0xF0FF, 0xF00A⟩ (by decide) rfl (in_high_byte (by simp [encode, wordXKK_toNat]; omega))
theorem ldDtVx (x : RegIdx) : Statement (.ldDtVx x) :=
  of_row ⟨"LD_DT__Vx", 0xF0FF, 0xF015⟩ (by decide) rfl (in_high_byte (by simp [encode, wordXKK_toNat]; omega))
theorem ldStVx (x : RegIdx) : Statement (.ldStVx x) :=
  of_row ⟨"LD_ST__Vx", 0xF0FF, 0xF018⟩ (by decide) rfl (in_high_byte (by simp [encode, wordXKK_toNat]; omega))
theorem addI (x : RegIdx) : Statement (.addI x) :=
  of_row ⟨"ADD_I__Vx", 0xF0FF, 0xF01E⟩ (by decide) rfl (in_high_byte (by simp [encode, wordXKK_toNat]; omega))
theorem ldF (x : RegIdx) : Statement (.ldF x) :=
  of_row ⟨"LD_F__Vx", 0xF0FF, 0xF029⟩ (by decide) rfl (in_high_byte (by simp [encode, wordXKK_toNat]; omega))
theorem ldB (x : RegIdx) : Statement (.ldB x) :=
  of_row ⟨"LD_B__Vx", 0xF0FF, 0xF033⟩ (by decide) rfl (in_high_byte (by simp [encode, wordXKK_toNat]; omega))
theorem ldMemVx (x : RegIdx) : Statement (.ldMemVx x) :=
  of_row ⟨"LD__I___Vx", 0xF0FF, 0xF055⟩ (by decide) rfl (in_high_byte (by simp [encode, wordXKK_toNat]; omega))
theorem ldVxMem (x : RegIdx) : Statement (.ldVxMem x) :=
  of_row ⟨"LD_Vx___I", 0xF0FF, 0xF065⟩ (by decide) rfl (in_high_byte (by simp [encode, wordXKK_toNat]; omega))
theorem nop (w : Word) : Statement (.nop w) := fun h => Or.inl ⟨rfl, h⟩

end Sys2Proof.Laws.EncodingRow
end

