-- ==== Sys2Proof/Laws/Screen.lean ====
section
/-! SUPPORT. The framebuffer's laws and what a draw does, pixel by pixel. -/

namespace Sys2Proof.Machine

/-- A pixel read after a flip. -/
theorem pixel_flip (fb : Framebuffer) (r c r' c' : Nat) :
    (Framebuffer.flip fb r c).pixel r' c' =
      if r' = r ∧ c' = c ∧ r < 32 ∧ c < 64 then !Framebuffer.pixel fb r c else Framebuffer.pixel fb r' c' := by
  by_cases hg : r < 32 ∧ c < 64
  · by_cases hg' : r' < 32 ∧ c' < 64
    · by_cases hr : r' = r
      · subst hr
        by_cases hc : c' = c
        · subst hc; simp [Framebuffer.flip, Framebuffer.pixel, hg]
        · simp [Framebuffer.flip, Framebuffer.pixel, hg, hg', hc, Vector.getElem_set_ne, Ne.symm hc]
      · simp [Framebuffer.flip, Framebuffer.pixel, hg, hg', hr, Vector.getElem_set_ne, Ne.symm hr]
    · have : ¬ (r' = r ∧ c' = c ∧ r < 32 ∧ c < 64) := by rintro ⟨rfl, rfl, h⟩; exact hg' h
      simp [Framebuffer.pixel, hg', this]
  · have : ¬ (r' = r ∧ c' = c ∧ r < 32 ∧ c < 64) := fun h => hg h.2.2
    simp [Framebuffer.flip, hg]

/-- Two framebuffers with the same pixels are the same. -/
theorem framebuffer_ext {a b : Framebuffer} (h : ∀ r c, a.pixel r c = b.pixel r c) : a = b := by
  refine Vector.ext fun r hr => Vector.ext fun c hc => ?_
  simpa [Framebuffer.pixel, hr, hc] using h r c

@[simp] theorem pixel_blank (r c : Nat) : Framebuffer.blank.pixel r c = false := by
  unfold Framebuffer.pixel Framebuffer.blank; split <;> simp

/-- Off the grid there is no pixel. -/
theorem pixel_off_grid (fb : Framebuffer) {r c : Nat} (h : ¬ (r < 32 ∧ c < 64)) : Framebuffer.pixel fb r c = false := by
  simp [Framebuffer.pixel, h]

/-- A 1 bit of one sprite row's first `n` columns on pixel (r, c). -/
def rowCovers (b : Byte) (row x0 n r c : Nat) : Prop :=
  r = row ∧ row < 32 ∧ c < 64 ∧ x0 ≤ c ∧ c < x0 + n ∧ b.getLsbD (7 - (c - x0)) = true

/-- What drawing the first `n` columns of one row does: the covered pixels flip, all others stay, and a
collision is remembered exactly when a covered pixel was on. -/
theorem drawBits_spec (b : Byte) (row x0 n : Nat) (acc : Framebuffer × Bool) :
    (∀ r c, (rowCovers b row x0 n r c → (drawBits b row x0 n acc).1.pixel r c = !acc.1.pixel r c) ∧
      (¬ rowCovers b row x0 n r c → (drawBits b row x0 n acc).1.pixel r c = acc.1.pixel r c)) ∧
    ((drawBits b row x0 n acc).2 = true ↔ acc.2 = true ∨ ∃ c, rowCovers b row x0 n row c ∧ acc.1.pixel row c = true) := by
  induction n with
  | zero =>
    have h0 : ∀ r c, ¬ rowCovers b row x0 0 r c := by intro r c h; unfold rowCovers at h; omega
    refine ⟨fun r c => ⟨fun h => absurd h (h0 r c), fun _ => rfl⟩, ?_⟩
    simp [drawBits, h0]
  | succ n ih =>
    obtain ⟨ihp, ihc⟩ := ih
    have hnew : ∀ r c, rowCovers b row x0 (n + 1) r c ↔ rowCovers b row x0 n r c ∨
        (r = row ∧ c = x0 + n ∧ row < 32 ∧ x0 + n < 64 ∧ b.getLsbD (7 - n) = true) := by
      intro r c
      unfold rowCovers
      constructor
      · rintro ⟨h1, h2, h3, h4, h5, h6⟩
        by_cases hc : c = x0 + n
        · right; subst hc; exact ⟨h1, rfl, h2, h3, by simpa using h6⟩
        · left; exact ⟨h1, h2, h3, h4, by omega, h6⟩
      · rintro (⟨h1, h2, h3, h4, h5, h6⟩ | ⟨h1, rfl, h3, h4, h5⟩)
        · exact ⟨h1, h2, h3, h4, by omega, h6⟩
        · exact ⟨h1, h3, h4, by omega, by omega, by simpa using h5⟩
    have hfresh : ¬ rowCovers b row x0 n row (x0 + n) := by unfold rowCovers; omega
    simp only [drawBits, drawBit]
    by_cases hon : row < 32 ∧ x0 + n < 64 ∧ b.getLsbD (7 - n) = true
    · have hg : ¬ (32 ≤ row ∨ 64 ≤ x0 + n) := by omega
      rw [if_neg hg, if_pos hon.2.2]
      have hpix := (ihp row (x0 + n)).2 hfresh
      refine ⟨fun r c => ?_, ?_⟩
      · simp only [xorPixel, pixel_flip, hnew]
        by_cases hrc : r = row ∧ c = x0 + n
        · obtain ⟨rfl, rfl⟩ := hrc
          simp [hon.1, hon.2.1, hon.2.2, hpix]
        · have h1 : ¬ (r = row ∧ c = x0 + n ∧ row < 32 ∧ x0 + n < 64) := fun h => hrc ⟨h.1, h.2.1⟩
          rw [if_neg h1]
          exact ⟨fun h => (ihp r c).1 (h.resolve_right fun h => hrc ⟨h.1, h.2.1⟩),
            fun h => (ihp r c).2 fun h' => h (Or.inl h')⟩
      · simp only [xorPixel, Bool.or_eq_true, ihc, hpix, hnew]
        constructor
        · rintro ((h | ⟨c, hc, hp⟩) | h)
          · exact Or.inl h
          · exact Or.inr ⟨c, Or.inl hc, hp⟩
          · exact Or.inr ⟨x0 + n, Or.inr ⟨trivial, rfl, hon.1, hon.2.1, hon.2.2⟩, h⟩
        · rintro (h | ⟨c, hc | ⟨-, rfl, -⟩, hp⟩)
          · exact Or.inl (Or.inl h)
          · exact Or.inl (Or.inr ⟨c, hc, hp⟩)
          · exact Or.inr hp
    · have hsame : ∀ r c, rowCovers b row x0 (n + 1) r c ↔ rowCovers b row x0 n r c := by
        intro r c; rw [hnew]
        exact ⟨fun h => h.resolve_right fun h => hon h.2.2, Or.inl⟩
      have hacc : (if 32 ≤ row ∨ 64 ≤ x0 + n then drawBits b row x0 n acc
          else if b.getLsbD (7 - n) = true then xorPixel row (x0 + n) (drawBits b row x0 n acc)
          else drawBits b row x0 n acc) = drawBits b row x0 n acc := by
        split
        · rfl
        · split
          · exact absurd ⟨by omega, by omega, by assumption⟩ hon
          · rfl
      rw [hacc]
      simp only [hsame]
      exact ⟨ihp, ihc⟩

/-- A 1 bit of the sprite's first `n` rows on pixel (r, c). -/
def rowsCover (m : Memory) (a y0 x0 n r c : Nat) : Prop :=
  y0 ≤ r ∧ r < y0 + n ∧ a + (r - y0) < memorySize ∧ rowCovers (m.read (a + (r - y0))) r x0 8 r c

/-- What drawing the first `n` rows does: the covered pixels flip, all others stay, and a collision is
remembered exactly when a covered pixel was on. -/
theorem drawRows_spec (m : Memory) (a y0 x0 n : Nat) (acc : Framebuffer × Bool) :
    (∀ r c, (rowsCover m a y0 x0 n r c → (drawRows m a y0 x0 n acc).1.pixel r c = !acc.1.pixel r c) ∧
      (¬ rowsCover m a y0 x0 n r c → (drawRows m a y0 x0 n acc).1.pixel r c = acc.1.pixel r c)) ∧
    ((drawRows m a y0 x0 n acc).2 = true ↔ acc.2 = true ∨ ∃ r c, rowsCover m a y0 x0 n r c ∧ acc.1.pixel r c = true) := by
  induction n with
  | zero =>
    have h0 : ∀ r c, ¬ rowsCover m a y0 x0 0 r c := by intro r c h; unfold rowsCover at h; omega
    refine ⟨fun r c => ⟨fun h => absurd h (h0 r c), fun _ => rfl⟩, ?_⟩
    simp [drawRows, h0]
  | succ n ih =>
    obtain ⟨ihp, ihc⟩ := ih
    have hnew : ∀ r c, rowsCover m a y0 x0 (n + 1) r c ↔ rowsCover m a y0 x0 n r c ∨
        (a + n < memorySize ∧ rowCovers (m.read (a + n)) (y0 + n) x0 8 r c) := by
      intro r c
      constructor
      · rintro ⟨h1, h2, h3, h4⟩
        by_cases hr : r = y0 + n
        · have e : r - y0 = n := by omega
          rw [e] at h3 h4
          subst hr
          exact Or.inr ⟨h3, h4⟩
        · exact Or.inl ⟨h1, by omega, h3, h4⟩
      · rintro (⟨h1, h2, h3, h4⟩ | ⟨h3, h4⟩)
        · exact ⟨h1, by omega, h3, h4⟩
        · have hr : r = y0 + n := h4.1
          have e : r - y0 = n := by omega
          subst hr
          exact ⟨by omega, by omega, by rw [e]; exact h3, by rw [e]; exact h4⟩
    have hrow : ∀ c, ¬ rowsCover m a y0 x0 n (y0 + n) c := by intro c h; unfold rowsCover at h; omega
    simp only [drawRows, drawRow, inBounds, decide_eq_true_eq]
    by_cases hb : a + n < memorySize
    · rw [if_pos hb]
      obtain ⟨hp, hc⟩ := drawBits_spec (m.read (a + n)) (y0 + n) x0 8 (drawRows m a y0 x0 n acc)
      refine ⟨fun r c => ⟨fun h => ?_, fun h => ?_⟩, ?_⟩
      · rcases (hnew r c).mp h with h | ⟨-, h⟩
        · have hr : ¬ rowCovers (m.read (a + n)) (y0 + n) x0 8 r c := by
            intro h'; have := h'.1; subst this; exact hrow c h
          rw [(hp r c).2 hr, (ihp r c).1 h]
        · have hr : r = y0 + n := h.1
          rw [(hp r c).1 h, (ihp r c).2 (by rw [hr]; exact hrow c)]
      · have h1 : ¬ rowsCover m a y0 x0 n r c := fun h' => h ((hnew r c).mpr (Or.inl h'))
        have h2 : ¬ rowCovers (m.read (a + n)) (y0 + n) x0 8 r c := fun h' => h ((hnew r c).mpr (Or.inr ⟨hb, h'⟩))
        rw [(hp r c).2 h2, (ihp r c).2 h1]
      · rw [hc, ihc]
        constructor
        · rintro ((h | ⟨r, c, h, hpx⟩) | ⟨c, h, hpx⟩)
          · exact Or.inl h
          · exact Or.inr ⟨r, c, (hnew r c).mpr (Or.inl h), hpx⟩
          · rw [(ihp _ c).2 (hrow c)] at hpx
            exact Or.inr ⟨y0 + n, c, (hnew _ c).mpr (Or.inr ⟨hb, h⟩), hpx⟩
        · rintro (h | ⟨r, c, h, hpx⟩)
          · exact Or.inl (Or.inl h)
          · rcases (hnew r c).mp h with h | ⟨-, h⟩
            · exact Or.inl (Or.inr ⟨r, c, h, hpx⟩)
            · have hr : r = y0 + n := h.1
              subst hr
              exact Or.inr ⟨c, h, by rw [(ihp _ c).2 (hrow c)]; exact hpx⟩
    · have hsame : ∀ r c, rowsCover m a y0 x0 (n + 1) r c ↔ rowsCover m a y0 x0 n r c := by
        intro r c; rw [hnew]
        exact ⟨fun h => h.resolve_right fun h => hb h.1, Or.inl⟩
      rw [if_neg hb]
      simp only [hsame]
      exact ⟨ihp, ihc⟩

/-- The pixels DRW covers, as its rows cover them. -/
theorem spriteCovers_iff (s : State) (x y : RegIdx) (n : BitVec 4) (r c : Nat) :
    spriteCovers s x y n r c = true ↔
      rowsCover s.mem (s.effAddr 0) (s.startRow y) (s.startCol x) n.toNat r c := by
  simp only [spriteCovers, Bool.and_eq_true, decide_eq_true_eq]
  simp only [rowsCover, rowCovers, State.effAddr, Nat.add_zero]
  tauto

/-- What a draw does, pixel by pixel (44_framebuffer.md R193): XOR with the covered pixels. -/
theorem drawSprite_pixel (s : State) (x y : RegIdx) (n : BitVec 4) (r c : Nat) :
    (drawSprite x y n s).1.pixel r c = (s.fb.pixel r c ^^ spriteCovers s x y n r c) := by
  have h := (drawRows_spec s.mem (s.effAddr 0) (s.startRow y) (s.startCol x) n.toNat (s.fb, false)).1 r c
  rw [← spriteCovers_iff] at h
  cases hc : spriteCovers s x y n r c
  · simpa [drawSprite] using h.2 (by simp [hc])
  · simpa [drawSprite] using h.1 hc

/-- When a draw collides: a covered pixel was on (44_framebuffer.md R192, R193). -/
theorem drawSprite_collides (s : State) (x y : RegIdx) (n : BitVec 4) :
    (drawSprite x y n s).2 = true ↔ ∃ r c, spriteCovers s x y n r c = true ∧ s.fb.pixel r c = true := by
  have h := (drawRows_spec s.mem (s.effAddr 0) (s.startRow y) (s.startCol x) n.toNat (s.fb, false)).2
  simpa [drawSprite, spriteCovers_iff] using h

end Sys2Proof.Machine
end

