-- ==== Sys2Proof/Machine/Assembly.lean ====
section
/-! DEFINITION. How the spec writes an instruction (30_encoding.md R81): one spelling per row and no
pseudo-instruction (R82). It is a notation only; nothing else in the model reads it. -/

namespace Sys2Proof.Machine

/-- A hexadecimal digit. -/
def hexDigit (n : Nat) : String := ["0", "1", "2", "3", "4", "5", "6", "7", "8", "9", "A", "B", "C", "D", "E", "F"].getD n ""

/-- The low `k` hexadecimal digits of a number. -/
def hexDigits : Nat → Nat → String
  | 0, _ => ""
  | k + 1, n => hexDigits k (n / 16) ++ hexDigit (n % 16)

/-- A literal of `k` digits. R81 allows hexadecimal or decimal; upper-case hexadecimal at the field's full width is
this model's choice. DESIGN CHOICE, log 25; safe. -/
def hexLit (k n : Nat) : String := "0x" ++ hexDigits k n

/-- A register, V0 to VF. -/
def regText (x : RegIdx) : String := "V" ++ hexDigit x.val

/-- `OP Vx, kk`. -/
def textXKK (op : String) (x : RegIdx) (kk : Byte) : String := op ++ " " ++ regText x ++ ", " ++ hexLit 2 kk.toNat

/-- `OP Vx, Vy`. -/
def textXY (op : String) (x y : RegIdx) : String := op ++ " " ++ regText x ++ ", " ++ regText y

/-- The spelling of an instruction (30_encoding.md R81); a word that decodes to NOP is written `.word`.
Every literal is in hexadecimal, the model's choice where R81 leaves it open. DESIGN CHOICE, log 25; safe. -/
def assembly : Instr → String
  | .cls => "CLS"
  | .ret => "RET"
  | .jp nnn => "JP " ++ hexLit 3 nnn.toNat
  | .call nnn => "CALL " ++ hexLit 3 nnn.toNat
  | .seImm x kk => textXKK "SE" x kk
  | .sneImm x kk => textXKK "SNE" x kk
  | .seReg x y => textXY "SE" x y
  | .ldImm x kk => textXKK "LD" x kk
  | .addImm x kk => textXKK "ADD" x kk
  | .ldReg x y => textXY "LD" x y
  | .orReg x y => textXY "OR" x y
  | .andReg x y => textXY "AND" x y
  | .xorReg x y => textXY "XOR" x y
  | .addReg x y => textXY "ADD" x y
  | .sub x y => textXY "SUB" x y
  | .shr x => "SHR " ++ regText x
  | .subn x y => textXY "SUBN" x y
  | .shl x => "SHL " ++ regText x
  | .sneReg x y => textXY "SNE" x y
  | .ldI nnn => "LD I, " ++ hexLit 3 nnn.toNat
  | .jpV0 nnn => "JP V0, " ++ hexLit 3 nnn.toNat
  | .rnd x kk => textXKK "RND" x kk
  | .drw x y n => textXY "DRW" x y ++ ", " ++ hexLit 1 n.toNat
  | .skp x => "SKP " ++ regText x
  | .sknp x => "SKNP " ++ regText x
  | .ldVxDt x => "LD " ++ regText x ++ ", DT"
  | .ldVxK x => "LD " ++ regText x ++ ", K"
  | .ldDtVx x => "LD DT, " ++ regText x
  | .ldStVx x => "LD ST, " ++ regText x
  | .addI x => "ADD I, " ++ regText x
  | .ldF x => "LD F, " ++ regText x
  | .ldB x => "LD B, " ++ regText x
  | .ldMemVx x => "LD [I], " ++ regText x
  | .ldVxMem x => "LD " ++ regText x ++ ", [I]"
  | .nop w => ".word 0x" ++ hexDigits 4 w.toNat

end Sys2Proof.Machine
end

