-- ==== Sys2Proof/Tests/Slice0.lean ====
section
/-! SUPPORT. The model's own tests. Every expected value comes from spec/95_test_vectors.md (the vector is named) or
is written out from the rule named; the witnesses show states and operands that meet the hypotheses of the statements
in Sys2Proof/Certificates/Slice0/Obligations.lean. -/

open Sys2Proof Sys2Proof.Machine

namespace Sys2Proof.Tests

/-! ### Helpers -/

/-- The start state of a vector: reset, with some registers set (head of 95_test_vectors.md). -/
def start (rs : List (RegIdx × Byte)) : State := rs.foldl (fun s r => s.setReg r.1 r.2) State.reset

/-- The keypad with exactly the listed keys pressed. -/
def keysDown (ks : List (Fin 16)) : Keypad := Vector.ofFn (fun k => ks.contains k)

/-- A result that is a next state with the property `p`. -/
def nextWith (p : State → Bool) : Result → Bool
  | .next t => p t
  | .fault _ => false
  | .refused _ => false

/-- One full step of the word `w` at pc. -/
def stepOf (w : Word) (s : State) : Result := step (s.placeWord w)

/-- The pixels of row `r` that are on. -/
def rowOn (s : State) (r : Nat) : List Nat := (List.range 64).filter (fun c => s.fb.pixel r c)

/-- The state with a sprite at 0x300 and I there (section 2.5 of 95_test_vectors.md). -/
def spriteAt300 (bs : List Byte) (s : State) : State := (s.storeBytes 0x300 bs).setIndex 0x300

/-- A framebuffer with the one pixel (0, 0) on. -/
def cornerOn : Framebuffer := Framebuffer.flip Framebuffer.blank 0 0

/-- The state of a block whose policies are the other settings (00_scope.md R10). -/
def otherPolicies (s : State) : State :=
  { s with policies := { fetchOob := .fault, callFull := .jump, aluFlagAlias := .snapshot } }

/-- No key pressed. -/
def noKeys : Keypad := Vector.replicate 16 false

/-- Parameters whose FONT is 80 bytes 0xFF. -/
def otherFont : Params := { params with font := Vector.replicate 80 0xFF }

/-- The state with `n` stack entries in use. -/
def depth (n : Fin 17) (s : State) : State := { s with sp := n }

/-! ### Decoding: words written out from 30_encoding.md R75, one at least for each row -/

/-- 0000 0000 1110 0000; 0000 0000 1110 1110 and the aliases of CY-2, CY-3, CY-13. -/
theorem test_decode_group0 :
    decode 0b0000000011100000 = .cls ∧ decode 0b0000000011101110 = .ret ∧ decode 0x0120 = .cls ∧
    decode 0x0ABE = .ret ∧ decode 0x0000 = .cls := by decide

/-- High digits 1, 2, A, B with a 12-bit literal. -/
theorem test_decode_literal :
    decode 0b0001001000000100 = .jp 0x204 ∧ decode 0b0010001000010000 = .call 0x210 ∧
    decode 0b1010001100000000 = .ldI 0x300 ∧ decode 0b1011111111111000 = .jpV0 0xFF8 := by decide

/-- High digits 3, 4, 6, 7, C with a register and a byte. -/
theorem test_decode_immediate :
    decode 0b0011000000000000 = .seImm 0 0x00 ∧ decode 0b0100000100000101 = .sneImm 1 0x05 ∧
    decode 0b0110101001111011 = .ldImm 10 0x7B ∧ decode 0b0111010100000101 = .addImm 5 0x05 ∧
    decode 0b1100001100001111 = .rnd 3 0x0F := by decide

/-- High digits 5 and 9: the low nibble is ignored (CT-9). -/
theorem test_decode_compare :
    decode 0b0101000100100001 = .seReg 1 2 ∧ decode 0b1001000100010000 = .sneReg 1 1 ∧
    decode 0x512F = .seReg 1 2 ∧ decode 0x934A = .sneReg 3 4 := by decide

/-- High digit 8, low nibbles 0 to 7 and E; the Y field of the shifts is ignored (AR-18). -/
theorem test_decode_group8 :
    decode 0b1000000100110000 = .ldReg 1 3 ∧ decode 0b1000000000010001 = .orReg 0 1 ∧
    decode 0b1000000000010010 = .andReg 0 1 ∧ decode 0b1000000000010011 = .xorReg 0 1 ∧
    decode 0b1000000000010100 = .addReg 0 1 ∧ decode 0b1000000000010101 = .sub 0 1 ∧
    decode 0b1000001000110110 = .shr 2 ∧ decode 0b1000000000010111 = .subn 0 1 ∧
    decode 0b1000001000001110 = .shl 2 := by decide

/-- High digits D and E; 0xE1F1 is an alias (CY-5). -/
theorem test_decode_screen_keys :
    decode 0b1101000100100101 = .drw 1 2 5 ∧ decode 0b1110010010011110 = .skp 4 ∧
    decode 0b1110010010100001 = .sknp 4 ∧ decode 0xE1F1 = .sknp 1 := by decide

/-- High digit F, low bytes 07, 0A, 15, 18, 1E, 29, 33, 55, 65. -/
theorem test_decode_groupF :
    decode 0b1111000100000111 = .ldVxDt 1 ∧ decode 0b1111001000001010 = .ldVxK 2 ∧
    decode 0b1111000000010101 = .ldDtVx 0 ∧ decode 0b1111001100011000 = .ldStVx 3 ∧
    decode 0b1111000000011110 = .addI 0 ∧ decode 0b1111000000101001 = .ldF 0 ∧
    decode 0b1111101000110011 = .ldB 10 ∧ decode 0b1111001001010101 = .ldMemVx 2 ∧
    decode 0b1111001001100101 = .ldVxMem 2 := by decide

/-- Words no row matches: CY-1, CY-4, CY-6 and one of group E (30_encoding.md R77). -/
theorem test_decode_nop :
    decode 0x0123 = .nop 0x0123 ∧ decode 0x8128 = .nop 0x8128 ∧ decode 0xF017 = .nop 0xF017 ∧
    decode 0xE19F = .nop 0xE19F := by decide

/-- The canonical words of 30_encoding.md R81. -/
theorem test_encode_canonical :
    encode .cls = 0x00E0 ∧ encode .ret = 0x00EE ∧ encode (.seReg 1 2) = 0x5120 ∧ encode (.sneReg 1 2) = 0x9120 ∧
    encode (.shr 2) = 0x8206 ∧ encode (.shl 2) = 0x820E ∧ encode (.skp 4) = 0xE49E ∧
    encode (.sknp 4) = 0xE4A1 := by decide

/-- The high byte comes first (20_memory.md R55), and a lone byte is no instruction (30_encoding.md R70). -/
theorem test_decode_bytes :
    decodeBytes [0x6A, 0x7B, 0x00] = .ok (.ldImm 10 0x7B, [0x00]) ∧ decodeBytes [0x6A] = .error .truncated ∧
    decodeBytes [] = .error .truncated := by decide

/-- A NOP term whose word some row takes is ill formed; one for each group that has unrecognised words, and one of a
group that has none. -/
theorem test_illformed_nop :
    (Instr.nop 0x00E0).wellFormed = false ∧ (Instr.nop 0x00EE).wellFormed = false ∧
    (Instr.nop 0x1234).wellFormed = false ∧ (Instr.nop 0x8005).wellFormed = false ∧
    (Instr.nop 0x800E).wellFormed = false ∧ (Instr.nop 0xE09E).wellFormed = false ∧
    (Instr.nop 0xE0A1).wellFormed = false ∧ (Instr.nop 0xF007).wellFormed = false ∧
    (Instr.nop 0xF065).wellFormed = false := by decide

/-- Lines of programs P1, P2 and P5 and an unrecognised word (30_encoding.md R81). -/
theorem test_assembly :
    assembly (decode 0x7103) = "ADD V1, 0x03" ∧ assembly (decode 0x2210) = "CALL 0x210" ∧
    assembly (decode 0xF265) = "LD V2, [I]" ∧ assembly (decode 0xF20A) = "LD V2, K" ∧
    assembly (decode 0x0123) = ".word 0x0123" := by decide

/-! ### The step -/

/-- CY-1, CY-11 and TI-15: NOP. -/
theorem test_nop : nextWith (fun t => t.pc == 0x202 && t.dt == 0x00 && t.st == 0xFE)
    (stepOf 0x0123 { State.reset with st := 0xFF }) = true := by decide

/-- CY-7: the last fetch in bounds. -/
theorem test_fetch_last : nextWith (fun t => t.reg 0 == 0x11 && t.pc == 0x1000)
    (stepOf 0x6011 { State.reset with pc := 0x0FFE }) = true := by decide

/-- CY-8: a fetch out of bounds under either policy. -/
theorem test_fetch_out :
    nextWith (fun t => t.pc == 0x1002 && t.dt == 0x04) (step { State.reset with pc := 0x1000, dt := 0x05 }) = true ∧
    step (otherPolicies { State.reset with pc := 0x1000, dt := 0x05 }) = .fault (.fetchOutOfBounds 0x1000) :=
  ⟨by decide, rfl⟩

/-- CY-9 and CY-10: only the second byte out of bounds; pc wraps at 2^16. -/
theorem test_fetch_edges :
    nextWith (fun t => t.pc == 0x1001) (step { State.reset with pc := 0x0FFF }) = true ∧
    nextWith (fun t => t.pc == 0x0000) (step { State.reset with pc := 0xFFFE }) = true := by decide

/-- CY-12: an odd pc. -/
theorem test_fetch_odd : nextWith (fun t => t.reg 1 == 0x23 && t.pc == 0x203)
    (stepOf 0x6123 { State.reset with pc := 0x0201 }) = true := by decide

/-- The host's pending keypad write comes before the step and is consumed by it (60_exceptions.md R247). -/
theorem test_host_keys : nextWith (fun t => t.reg 2 == 0x07 && t.pendingKeys == [])
    (stepOf 0xF20A { State.reset with pendingKeys := [keysDown [7, 12]] }) = true := by decide

/-- The start of P1's image, and W6: an empty image leaves memory in its font-only state. -/
theorem test_load_image :
    (State.boot params noKeys [0x60, 0x05]).mem.read 0x200 = 0x60 ∧
    (State.boot params noKeys [0x60, 0x05]).mem.read 0x201 = 0x05 ∧
    (State.boot params noKeys []).mem.read 0x200 = 0x00 ∧ (State.boot params noKeys []).mem.read 0x050 = 0xF0 := by decide +kernel

/-- FONT is a parameter of construction (10_state.md R34, R260): another one stands at 0x050 to 0x09F alone. -/
theorem test_construct_font :
    (State.construct otherFont noKeys).mem.read 0x04F = 0x00 ∧ (State.construct otherFont noKeys).mem.read 0x050 = 0xFF ∧
    (State.construct otherFont noKeys).mem.read 0x09F = 0xFF ∧
    (State.construct otherFont noKeys).mem.read 0x0A0 = 0x00 := by decide +kernel

/-! ### Arithmetic -/

/-- AR-1. -/
theorem test_ldImm : nextWith (fun t => t.reg 10 == 0x7B && t.pc == 0x202) (stepOf 0x6A7B State.reset) = true := by decide

/-- AR-2: no carry. -/
theorem test_addImm_wraps : nextWith (fun t => t.reg 0 == 0x00 && t.reg 15 == 0x55)
    (stepOf 0x7001 (start [(0, 0xFF), (15, 0x55)])) = true := by decide

/-- W8. -/
theorem test_addImm_sum : nextWith (fun t => t.reg 5 == 0x0F) (stepOf 0x7505 (start [(5, 0x0A)])) = true := by decide

/-- AR-4. -/
theorem test_ldReg : nextWith (fun t => t.reg 1 == 0x42) (stepOf 0x8130 (start [(3, 0x42)])) = true := by decide

/-- AR-5. -/
theorem test_or : nextWith (fun t => t.reg 0 == 0xFF && t.reg 15 == 0x77)
    (stepOf 0x8011 (start [(0, 0x0F), (1, 0xF0), (15, 0x77)])) = true := by decide

/-- AR-6. -/
theorem test_and : nextWith (fun t => t.reg 0 == 0x0C) (stepOf 0x8012 (start [(0, 0x3C), (1, 0x0F)])) = true := by decide

/-- AR-7. -/
theorem test_xor_self : nextWith (fun t => t.reg 0 == 0x00) (stepOf 0x8003 (start [(0, 0x5A)])) = true := by decide

/-- AR-8. -/
theorem test_addReg_carry : nextWith (fun t => t.reg 0 == 0x00 && t.reg 15 == 0x01)
    (stepOf 0x8014 (start [(0, 0xFF), (1, 0x01)])) = true := by decide

/-- AR-10: with X = 15 the result overwrites the flag. -/
theorem test_addReg_vf : nextWith (fun t => t.reg 15 == 0x30)
    (stepOf 0x8F14 (start [(15, 0x10), (1, 0x20)])) = true := by decide

/-- AR-14. -/
theorem test_sub_borrow : nextWith (fun t => t.reg 0 == 0xFE && t.reg 15 == 0x00)
    (stepOf 0x8015 (start [(0, 0x05), (1, 0x07)])) = true := by decide

/-- AR-16: Y = 15 under the two settings. -/
theorem test_sub_vf :
    nextWith (fun t => t.reg 0 == 0x0F && t.reg 15 == 0x01) (stepOf 0x80F5 (start [(0, 0x10), (15, 0x03)])) = true ∧
    nextWith (fun t => t.reg 0 == 0x0D && t.reg 15 == 0x01)
      (stepOf 0x80F5 (otherPolicies (start [(0, 0x10), (15, 0x03)]))) = true := by decide

/-- AR-18: the Y field is ignored. -/
theorem test_shr : nextWith (fun t => t.reg 2 == 0x02 && t.reg 15 == 0x00)
    (stepOf 0x8236 (start [(2, 0x04), (3, 0xFF)])) = true := by decide

/-- AR-19: X = 15 under the two settings. -/
theorem test_shr_vf :
    nextWith (fun t => t.reg 15 == 0x00) (stepOf 0x8F06 (start [(15, 0x03)])) = true ∧
    nextWith (fun t => t.reg 15 == 0x01) (stepOf 0x8F06 (otherPolicies (start [(15, 0x03)]))) = true := by decide

/-- AR-21. -/
theorem test_subn_borrow : nextWith (fun t => t.reg 0 == 0xC8 && t.reg 15 == 0x00)
    (stepOf 0x8017 (start [(0, 0x64), (1, 0x2C)])) = true := by decide

/-- AR-22: X = 15 under the two settings. -/
theorem test_subn_vf :
    nextWith (fun t => t.reg 15 == 0x04) (stepOf 0x8F17 (start [(15, 0x02), (1, 0x05)])) = true ∧
    nextWith (fun t => t.reg 15 == 0x03) (stepOf 0x8F17 (otherPolicies (start [(15, 0x02), (1, 0x05)]))) = true := by decide

/-- AR-24. -/
theorem test_shl : nextWith (fun t => t.reg 2 == 0x38 && t.reg 15 == 0x01)
    (stepOf 0x820E (start [(2, 0x9C)])) = true := by decide

/-- AR-26: X = 15 under the two settings. -/
theorem test_shl_vf :
    nextWith (fun t => t.reg 15 == 0x02) (stepOf 0x8F0E (start [(15, 0xC0)])) = true ∧
    nextWith (fun t => t.reg 15 == 0x80) (stepOf 0x8F0E (otherPolicies (start [(15, 0xC0)]))) = true := by decide

/-- AR-28: the drawn byte is a free value, here supposed to be 0xA7. -/
theorem test_rnd (h : Config.rnd 0 = 0xA7) : ∃ t, exec (.rnd 3 0x0F) State.reset = .next t ∧ t.reg 3 = 0x07 := by
  refine ⟨_, rfl, ?_⟩
  show Config.rnd 0 &&& 0x0F#8 = 0x07#8
  rw [h]; decide

/-! ### Index register and memory -/

/-- MI-1. -/
theorem test_ldI : nextWith (fun t => t.index == 0x0300) (stepOf 0xA300 State.reset) = true := by decide

/-- MI-2 and MI-3: the last sum applied, the first dropped. -/
theorem test_addI :
    nextWith (fun t => t.index == 0x0FFF) (stepOf 0xF01E ((start [(0, 0x01)]).setIndex 0x0FFE)) = true ∧
    nextWith (fun t => t.index == 0x0FFE) (stepOf 0xF01E ((start [(0, 0x02)]).setIndex 0x0FFE)) = true := by decide

/-- MI-5 and MI-7. -/
theorem test_ldF :
    nextWith (fun t => t.index == 0x009B) (stepOf 0xF029 (start [(0, 0x0F)])) = true ∧
    nextWith (fun t => t.index == 0x0123) (stepOf 0xF029 ((start [(0, 0x1A)]).setIndex 0x0123)) = true := by decide

/-- MI-9. -/
theorem test_ldB : nextWith (fun t => t.mem.read 0x300 == 0x02 && t.mem.read 0x301 == 0x05 && t.mem.read 0x302 == 0x05)
    (stepOf 0xF033 ((start [(0, 0xFF)]).setIndex 0x300)) = true := by decide

/-- MI-11: the units digit is not written. -/
theorem test_ldB_edge : nextWith (fun t => t.mem.read 0xFFE == 0x01 && t.mem.read 0xFFF == 0x02 && decide t.mem.wf)
    (stepOf 0xFA33 ((start [(10, 0x7B)]).setIndex 0x0FFE)) = true := by decide

/-- MI-12. -/
theorem test_ldMemVx : nextWith (fun t => t.mem.read 0x400 == 0x11 && t.mem.read 0x402 == 0x33 &&
      t.mem.read 0x403 == 0x00 && t.index == 0x0400)
    (stepOf 0xF255 ((start [(0, 0x11), (1, 0x22), (2, 0x33), (3, 0x44)]).setIndex 0x400)) = true := by decide

/-- MI-13. -/
theorem test_ldMemVx_edge : nextWith (fun t => t.mem.read 0xFFD == 0x01 && t.mem.read 0xFFF == 0x03 && decide t.mem.wf)
    (stepOf 0xF555 ((start [(0, 1), (1, 2), (2, 3), (3, 4), (4, 5), (5, 6)]).setIndex 0x0FFD)) = true := by decide

/-- MI-14. -/
theorem test_ldVxMem_edge : nextWith (fun t => t.reg 0 == 0xAA && t.reg 1 == 0xBB && t.reg 2 == 0x77 && t.reg 3 == 0x88)
    (stepOf 0xF365 (((start [(2, 0x77), (3, 0x88)]).storeBytes 0xFFE [0xAA, 0xBB]).setIndex 0x0FFE)) = true := by decide

/-- MI-15: VF is loaded too, I stays. -/
theorem test_ldVxMem_all : nextWith (fun t => t.reg 15 == 0x0F && t.reg 7 == 0x07 && t.index == 0x0500)
    (stepOf 0xFF65 ((State.reset.storeBytes 0x500 ((List.range 16).map (BitVec.ofNat 8))).setIndex 0x500)) = true := by
  decide

/-! ### Control -/

/-- CT-1. -/
theorem test_jp : nextWith (fun t => t.pc == 0x204) (stepOf 0x1204 { State.reset with pc := 0x20A }) = true := by decide

/-- CT-2. -/
theorem test_call : nextWith (fun t => t.stack[0] == 0x206 && t.sp == 1 && t.pc == 0x210)
    (stepOf 0x2210 { State.reset with pc := 0x204 }) = true := by decide

/-- CT-7: a full stack under the two settings. -/
theorem test_call_full :
    nextWith (fun t => t.pc == 0x202 && t.sp == 16) (stepOf 0x2300 (depth 16 State.reset)) = true ∧
    nextWith (fun t => t.pc == 0x300 && t.sp == 16) (stepOf 0x2300 (otherPolicies (depth 16 State.reset))) = true := by decide

/-- CT-3. -/
theorem test_ret : nextWith (fun t => t.pc == 0x206 && t.sp == 0 && t.stack[0] == 0x206)
    (stepOf 0x00EE { State.reset with pc := 0x212, sp := 1, stack := Vector.replicate 16 0x206 }) = true := by decide

/-- CT-4. -/
theorem test_ret_empty : nextWith (fun t => t.pc == 0x302 && t.sp == 0)
    (stepOf 0x00EE { State.reset with pc := 0x300 }) = true := by decide

/-- CT-5 and CT-6. -/
theorem test_seImm :
    nextWith (fun t => t.pc == 0x20C) (stepOf 0x3000 { State.reset with pc := 0x208 }) = true ∧
    nextWith (fun t => t.pc == 0x20A) (stepOf 0x3000 { start [(0, 0x01)] with pc := 0x208 }) = true := by decide

/-- CT-8. -/
theorem test_sneImm :
    nextWith (fun t => t.pc == 0x202) (stepOf 0x4105 (start [(1, 0x05)])) = true ∧
    nextWith (fun t => t.pc == 0x204) (stepOf 0x4106 (start [(1, 0x05)])) = true := by decide

/-- CT-9. -/
theorem test_seReg : nextWith (fun t => t.pc == 0x204) (stepOf 0x5121 (start [(1, 0x33), (2, 0x33)])) = true := by decide

/-- CT-10 and CT-11. -/
theorem test_sneReg :
    nextWith (fun t => t.pc == 0x202) (stepOf 0x9110 (start [(1, 0x07)])) = true ∧
    nextWith (fun t => t.pc == 0x204) (stepOf 0x9010 (start [(0, 0x01), (1, 0x02)])) = true := by decide

/-- CT-12 and CT-13: the sum is not masked. -/
theorem test_jpV0 :
    nextWith (fun t => t.pc == 0x304) (stepOf 0xB300 (start [(0, 0x04)])) = true ∧
    nextWith (fun t => t.pc == 0x1008) (stepOf 0xBFF8 (start [(0, 0x10)])) = true := by decide

/-! ### Framebuffer -/

/-- FB-1. -/
theorem test_cls : nextWith (fun t => t.fbRead 0 == 0x00000000#32 && t.reg 15 == 0x42)
    (stepOf 0x00E0 { start [(15, 0x42)] with fb := cornerOn }) = true := by decide

/-- FB-5: the start wraps; FB-4: the row is clipped. -/
theorem test_drw_place :
    nextWith (fun t => rowOn t 1 == [2, 3, 4, 5, 6, 7, 8, 9] && t.reg 15 == 0x00)
      (stepOf 0xD121 (spriteAt300 [0xFF] (start [(1, 0x42), (2, 0x21)]))) = true ∧
    nextWith (fun t => rowOn t 0 == [60, 61, 62, 63] && t.reg 15 == 0x00)
      (stepOf 0xD121 (spriteAt300 [0xFF] (start [(1, 0x3C)]))) = true := by decide

/-- FB-10 and FB-12: a collision; VF as the column is read before the flag is written. -/
theorem test_drw_flag :
    nextWith (fun t => rowOn t 0 == [] && t.reg 15 == 0x01)
      (stepOf 0xD121 { spriteAt300 [0x80] State.reset with fb := cornerOn }) = true ∧
    nextWith (fun t => rowOn t 0 == [5] && t.reg 15 == 0x00)
      (stepOf 0xDF11 (spriteAt300 [0x80] (start [(15, 0x05)]))) = true := by decide

/-! ### Keypad and timers -/

/-- TI-1 and TI-3. -/
theorem test_skp :
    nextWith (fun t => t.pc == 0x304)
      (stepOf 0xE49E { start [(4, 0x07)] with pc := 0x300, keys := keysDown [7] }) = true ∧
    nextWith (fun t => t.pc == 0x302)
      (stepOf 0xE49E { start [(4, 0x17)] with pc := 0x300, keys := keysDown [7] }) = true := by decide

/-- TI-4 and TI-6. -/
theorem test_sknp :
    nextWith (fun t => t.pc == 0x304) (stepOf 0xE4A1 { start [(4, 0x07)] with pc := 0x300 }) = true ∧
    nextWith (fun t => t.pc == 0x302) (stepOf 0xE4A1 { start [(4, 0x20)] with pc := 0x300 }) = true := by decide

/-- TI-7. -/
theorem test_ldVxDt : nextWith (fun t => t.reg 1 == 0x04 && t.dt == 0x03)
    (stepOf 0xF107 { State.reset with dt := 0x04 }) = true := by decide

/-- TI-8 and TI-10. -/
theorem test_ldDtVx :
    nextWith (fun t => t.dt == 0x04) (stepOf 0xF015 (start [(0, 0x05)])) = true ∧
    nextWith (fun t => t.dt == 0x00) (stepOf 0xF015 { State.reset with dt := 0x09 }) = true := by decide

/-- TI-11. -/
theorem test_ldStVx : nextWith (fun t => t.st == 0x09) (stepOf 0xF318 (start [(3, 0x0A)])) = true := by decide

/-- TI-12: no key, the instruction waits while the timer runs. -/
theorem test_ldVxK_wait : nextWith (fun t => t.pc == 0x206 && t.reg 2 == 0x00 && t.dt == 0x02)
    (stepOf 0xF20A { State.reset with pc := 0x206, dt := 0x03 }) = true := by decide

/-- TI-13: the least pressed key. -/
theorem test_ldVxK_least : nextWith (fun t => t.pc == 0x208 && t.reg 2 == 0x07)
    (stepOf 0xF20A { State.reset with pc := 0x206, keys := keysDown [7, 12] }) = true := by decide

/-! ### Witnesses: concrete states and operands that meet the statements' hypotheses -/

/-- Reset meets the invariant, and so does a state with a listed byte and the largest I. -/
theorem witness_StepKeepsMemoryFormAndIndexBound :
    State.reset.Inv ∧ (({ State.reset with index := 0x0FFF }).storeBytes 0x300 [0x01]).Inv ∧
    ∃ t, step State.reset = .next t := by
  refine ⟨by decide, by decide, _, rfl⟩

theorem witness_DecodeOfEncodeIsIdentity :
    (Instr.nop 0x0123).wellFormed = true ∧ (Instr.nop 0xFFFF).wellFormed = true ∧
    (Instr.drw 15 15 0xF).wellFormed = true ∧ (Instr.jp 0xFFF).wellFormed = true := by decide

/-- Words that differ in ignored bits only, one pair for each mask. -/
theorem witness_IgnoredBitsDoNotMatter :
    (0x00E0 &&& usedBits (decode 0x00E0) = (0x0FF0 : Word) &&& usedBits (decode 0x00E0)) ∧
    (0x5120 &&& usedBits (decode 0x5120) = (0x512F : Word) &&& usedBits (decode 0x5120)) ∧
    (0x8206 &&& usedBits (decode 0x8206) = (0x82F6 : Word) &&& usedBits (decode 0x8206)) ∧
    (0xE49E &&& usedBits (decode 0xE49E) = (0xE4FE : Word) &&& usedBits (decode 0xE49E)) := by decide

/-- A word that matches a row, and one that matches none. -/
theorem witness_DispatcherAgreesWithOpcodeMap :
    (∃ row ∈ opcodeMap, (0x8236 : Word) &&& row.mask = row.pattern) ∧
    (∀ row ∈ opcodeMap, (0x8128 : Word) &&& row.mask ≠ row.pattern) := by decide

/-- The last pc from which a step runs an instruction, with LD V0, 0x11 there; the host has a write pending. -/
def lastFetch : State := { State.reset.storeBytes 0xFFE [0x60, 0x11] with pc := 0x0FFE, pendingKeys := [keysDown [3]] }

theorem witness_StepRunsDecodedInstruction :
    lastFetch.hostKeys.pc.toNat ≤ 0x0FFE ∧
    decodeBytes [lastFetch.hostKeys.mem.read lastFetch.hostKeys.pc.toNat,
      lastFetch.hostKeys.mem.read (lastFetch.hostKeys.pc.toNat + 1)] = .ok (.ldImm 0 0x11, []) ∧
    (Instr.ldImm 0 0x11).wellFormed = true := by decide

/-- The first pc out of fetch range and the first out of memory, under either policy, and the last in range. -/
theorem witness_FetchOutOfBoundsByPolicy :
    ¬ ({ State.reset with pc := 0x0FFF }).hostKeys.pc.toNat ≤ 0x0FFE ∧
    ({ State.reset with pc := 0x0FFF }).hostKeys.policies.fetchOob = .nop ∧
    ¬ (otherPolicies { State.reset with pc := 0x1000 }).hostKeys.pc.toNat ≤ 0x0FFE ∧
    (otherPolicies { State.reset with pc := 0x1000 }).hostKeys.policies.fetchOob = .fault ∧
    ({ State.reset with pc := 0x0FFE }).pc.toNat ≤ 0x0FFE := by decide

/-- Either alternative of the condition under which a step answers a next state. -/
theorem witness_StepAnswersAndTimers :
    (State.reset.policies.fetchOob = .nop) ∧
    ((otherPolicies { State.reset with pc := 0x0FFE }).pc.toNat ≤ 0x0FFE) := by decide

/-- A step that answers a next state, whose policies FrameOfInputs speaks of. -/
theorem witness_FrameOfInputs : ∃ t, step (otherPolicies State.reset) = .next t := ⟨_, rfl⟩

/-- LD [I], V1 at I = 0x300 and a later fetch there. -/
theorem witness_StoredWordIsFetchedNext : ∃ t u : State,
    exec (.ldMemVx 1) ((start [(0, 0x60), (1, 0x05)]).setIndex 0x300) = .next t ∧ u.mem = t.mem ∧
    u.pc = ((start [(0, 0x60), (1, 0x05)]).setIndex 0x300).index ∧ u.pc.toNat ≤ 0x0FFE ∧ 1 ≤ (1 : RegIdx).val := by
  refine ⟨_, { ((start [(0, 0x60), (1, 0x05)]).setIndex 0x300).storeBytes 0x300 [0x60, 0x05] with pc := 0x300 }, rfl, ?_, ?_,
    ?_, ?_⟩ <;> decide

/-- Two canonical memories that read alike. -/
theorem witness_CanonicalMemoriesReadingAlikeAreEqual :
    Memory.wf [(0x300, 0x01)] ∧ Memory.wf (Memory.write (Memory.write [] 0x300 0x02) 0x300 0x01) ∧
    ∀ a, a < 4096 → Memory.read [(0x300, 0x01)] a =
      Memory.read (Memory.write (Memory.write [] 0x300 0x02) 0x300 0x01) a := by
  refine ⟨by decide, by decide, fun a _ => rfl⟩

/-- An image of one byte: its index 0, and an address on either side of it; one byte too many: the last index. -/
theorem witness_ProgramLoadCopiesAtMostTheProgramSpace :
    0 < min ([0x60] : List Byte).length 3584 ∧ 0x1FF < 0x200 ∧
    0x200 + min ([0x60] : List Byte).length 3584 ≤ 0x201 ∧
    3583 < min (List.replicate 3585 (0x60 : Byte)).length 3584 := by
  refine ⟨by decide, by decide, by decide, ?_⟩
  rw [List.length_replicate]; decide

/-- For each frame, an instruction that writes the component and one that does not. -/
theorem witness_Frames :
    writesReg .cls 0 = false ∧ writesReg (.sub 1 2) 3 = false ∧ writesReg (.sub 1 2) 15 = true ∧
    writesReg (.ldVxMem 3) 4 = false ∧ writesIndex (.ldVxMem 3) = false ∧ writesPc .cls = false ∧
    writesStack (.jp 0x300) = false ∧ writesDt (.ldVxDt 0) = false ∧ writesSt (.ldDtVx 0) = false ∧
    writesFb (.nop 0x0123) = false := by decide

/-- Addresses that LD B and LD [I] store to, the ones beside them, and an instruction that stores nothing. -/
theorem witness_FrameOfMemory :
    0x2FF ∉ storeAddrs (.ldB 0) (State.reset.setIndex 0x300) ∧ 0x303 ∉ storeAddrs (.ldB 0) (State.reset.setIndex 0x300) ∧
    0x302 ∈ storeAddrs (.ldB 0) (State.reset.setIndex 0x300) ∧ 0x302 ∈ storeAddrs (.ldMemVx 2) (State.reset.setIndex 0x300) ∧
    0x303 ∉ storeAddrs (.ldMemVx 2) (State.reset.setIndex 0x300) ∧ storeAddrs (.ldVxMem 2) State.reset = [] := by decide

theorem witness_InputsAreReadOnlyByTheirInstructions :
    drawsByte (.ldImm 0 0x01) = false ∧ drawsByte (.skp 0) = false ∧ readsKeys (.rnd 0 0xFF) = false ∧
    readsKeys (.ldVxDt 0) = false := by decide

theorem witness_SoundTimerAndFramebufferAreUnreadable :
    writesSt (.ldVxDt 0) = false ∧ writesFb (.ldF 0) = false := by decide

/-- The two clauses on VF of ADD, SUB and SUBN: X below 15 with a carry or no borrow, and with the opposite. -/
theorem witness_FlagResults :
    ((1 : RegIdx) ≠ 15 ∧ 255 < ((start [(1, 0xFF), (2, 0x01)]).reg 1).toNat + ((start [(1, 0xFF), (2, 0x01)]).reg 2).toNat) ∧
    ¬ 255 < ((start [(1, 0xFE), (2, 0x01)]).reg 1).toNat + ((start [(1, 0xFE), (2, 0x01)]).reg 2).toNat ∧
    ((start [(1, 0x05), (2, 0x05)]).reg 2).toNat ≤ ((start [(1, 0x05), (2, 0x05)]).reg 1).toNat ∧
    ¬ ((start [(1, 0x05), (2, 0x06)]).reg 2).toNat ≤ ((start [(1, 0x05), (2, 0x06)]).reg 1).toNat := by decide

/-- SUB's and SUBN's hypotheses name the operands and the flag. -/
theorem witness_SubtractResult : ∃ (s : State) (a b f : Byte), a = s.reg 1 ∧ b = s.reg 15 ∧
    f = (if b.toNat ≤ a.toNat then 0x01 else 0x00) := ⟨start [(1, 0x05), (15, 0x03)], 0x05, 0x03, 0x01, by decide⟩

theorem witness_SubtractReversedResult : ∃ (s : State) (a b f : Byte), a = s.reg 1 ∧ b = s.reg 15 ∧
    f = (if a.toNat ≤ b.toNat then 0x01 else 0x00) := ⟨start [(1, 0x05), (15, 0x03)], 0x05, 0x03, 0x00, by decide⟩

theorem witness_ShiftResults : ∃ (s : State) (a : Byte), a = s.reg 2 ∧ (2 : RegIdx) ≠ 15 ∧ (15 : RegIdx) = 15 :=
  ⟨start [(2, 0x9C)], 0x9C, by decide⟩

/-- SUB, SHL and CALL where no policy matters, the same with VF or a full stack, and a fetched word of either kind. -/
theorem witness_PoliciesMatterOnlyWhereTheSpecSays :
    readsPolicy (.sub 14 0) State.reset = false ∧ readsPolicy (.sub 14 15) State.reset = true ∧
    readsPolicy (.shl 14) State.reset = false ∧ readsPolicy (.shl 15) State.reset = true ∧
    readsPolicy (.call 0x300) (depth 15 State.reset) = false ∧ readsPolicy (.call 0x300) (depth 16 State.reset) = true ∧
    (State.reset.placeWord 0x8015).pc.toNat ≤ 0x0FFE ∧
    readsPolicy (decode (State.reset.placeWord 0x8015).fetch) (State.reset.placeWord 0x8015) = false := by decide

/-- Both settings of ALU_FLAG_ALIAS, and of CALL_FULL_POLICY with the stack full. -/
theorem witness_PolicySettings :
    State.reset.policies.aluFlagAlias = .sequential ∧ (otherPolicies State.reset).policies.aluFlagAlias = .snapshot ∧
    (depth 16 State.reset).policies.callFull = .nop ∧ (otherPolicies (depth 16 State.reset)).policies.callFull = .jump ∧
    (otherPolicies (depth 16 State.reset)).sp.val = 16 := by decide

/-- Addresses at the edges of the clauses on memory after construction. -/
theorem witness_ConstructionByComponent : ∃ t, t = State.construct otherFont (keysDown [3]) ∧ 0x04F < 0x050 ∧
    0x050 + (79 : Fin 80).val < 0x0A0 ∧ 0x0A0 ≤ 0xFFF ∧ 0xFFF < 4096 := ⟨_, rfl, by decide⟩

/-- A mask with a bit of either kind. -/
theorem witness_RandomAndResult : (0x0F : Byte).getLsbD 4 = false ∧ (0x0F : Byte).getLsbD 3 = true := by decide

/-- The sum at the bound, ADD I's two cases. -/
theorem witness_AddToIndexResult :
    ((start [(0, 0x01)]).setIndex 0x0FFE).index.toNat + (((start [(0, 0x01)]).setIndex 0x0FFE).reg 0).toNat < 4096 ∧
    ¬ ((start [(0, 0x02)]).setIndex 0x0FFE).index.toNat + (((start [(0, 0x02)]).setIndex 0x0FFE).reg 0).toNat < 4096 := by
  decide

theorem witness_FontAddressResult : ((start [(0, 0x0F)]).reg 0).toNat < 16 ∧ ¬ ((start [(0, 0x10)]).reg 0).toNat < 16 := by
  decide

/-- At I = 0xFFE the first two digits land and the third address is out of bounds. -/
theorem witness_StoreBcdResult :
    (State.reset.setIndex 0x0FFE).effAddr 0 < 4096 ∧ (State.reset.setIndex 0x0FFE).effAddr 1 < 4096 ∧
    4096 ≤ (State.reset.setIndex 0x0FFE).effAddr 2 ∧ (State.reset.setIndex 0x0FFD).effAddr 2 < 4096 := by decide

/-- At I = 0xFFF register 0 has its byte and register 1 has none; address 0xFFE is beside both. -/
theorem witness_RegisterDumpAndLoadResult :
    (State.reset.setIndex 0x0FFF).effAddr (0 : RegIdx).val < 4096 ∧ 4096 ≤ (State.reset.setIndex 0x0FFF).effAddr (1 : RegIdx).val ∧
    ∀ k : RegIdx, k ≤ 1 → 0xFFE ≠ (State.reset.setIndex 0x0FFF).effAddr k.val := by decide

/-- One entry in use, all in use, and none. -/
theorem witness_ReturnResult :
    (0 : Fin 16).val + 1 = (depth 1 State.reset).sp.val ∧ (15 : Fin 16).val + 1 = (depth 16 State.reset).sp.val ∧
    (depth 0 State.reset).sp.val = 0 := by decide

theorem witness_CallResult :
    (depth 0 State.reset).sp.val < 16 ∧ (depth 15 State.reset).sp.val < 16 ∧ (depth 16 State.reset).sp.val = 16 := by decide

/-- The first and the last free entry; the state after the call itself meets the inner hypotheses. -/
theorem witness_CallThenReturnRestoresPc :
    (0 : Fin 16).val = (depth 0 State.reset).sp.val ∧ (15 : Fin 16).val = (depth 15 State.reset).sp.val ∧
    ∃ u v : State, exec (.call 0x300) (depth 15 State.reset) = .next u ∧ v.sp = u.sp ∧ v.stack[15] = u.stack[15] := by
  refine ⟨by decide, by decide, _, _, rfl, rfl, rfl⟩

/-- A draw that collides and one that does not. -/
theorem witness_DrawSpriteIsPointwiseXor :
    (∃ r c, spriteCovers (spriteAt300 [0x80] State.reset) 1 2 1 r c = true ∧
      ({ spriteAt300 [0x80] State.reset with fb := cornerOn }).fb.pixel r c = true) ∧
    ¬ ∃ r c, spriteCovers (spriteAt300 [0x80] State.reset) 1 2 1 r c = true ∧
      (spriteAt300 [0x80] State.reset).fb.pixel r c = true := by
  refine ⟨⟨0, 0, by decide⟩, ?_⟩
  rintro ⟨r, c, -, h⟩
  have e : (spriteAt300 [0x80] State.reset).fb.pixel r c = false := by
    unfold Framebuffer.pixel
    split
    · simp [spriteAt300, State.storeBytes, State.setIndex, State.setMem, State.reset]
    · rfl
  rw [e] at h; exact absurd h (by decide)

/-- A first draw after which the sprite starts at the same place, with VF as the column register too. -/
theorem witness_DrawTwiceRestoresFramebuffer : ∃ t u : State,
    exec (.drw 1 2 1) (spriteAt300 [0x80] State.reset) = .next t ∧
    t.startCol 1 = (spriteAt300 [0x80] State.reset).startCol 1 ∧ t.startRow 2 = (spriteAt300 [0x80] State.reset).startRow 2 ∧
    exec (.drw 15 2 1) (spriteAt300 [0x80] State.reset) = .next u ∧
    u.startCol 15 = (spriteAt300 [0x80] State.reset).startCol 15 := by
  refine ⟨_, _, rfl, ?_, ?_, rfl, ?_⟩ <;> decide

/-- Key values at both ends of the keypad, and the first value that names no key. -/
theorem witness_KeySkipResults :
    ((start [(4, 0x00)]).reg 4).toNat = (0 : Fin 16).val ∧ ((start [(4, 0x0F)]).reg 4).toNat = (15 : Fin 16).val ∧
    16 ≤ ((start [(4, 0x10)]).reg 4).toNat := by decide

/-- The least pressed key at both ends, and no key. -/
theorem witness_KeyWaitResult :
    ((keysDown [0, 15])[(0 : Fin 16)] = true ∧ ∀ j : Fin 16, j < 0 → (keysDown [0, 15])[j] = false) ∧
    ((keysDown [15])[(15 : Fin 16)] = true ∧ ∀ j : Fin 16, j < 15 → (keysDown [15])[j] = false) ∧
    (∀ k : Fin 16, State.reset.keys[k] = false) := by decide

/-- A fetch of each instruction whose statement speaks of the step around it. -/
theorem witness_FetchedWords :
    (State.reset.placeWord 0xF20A).pc.toNat ≤ 0x0FFE ∧ decode (State.reset.placeWord 0xF20A).fetch = .ldVxK 2 ∧
    (∀ k : Fin 16, (State.reset.placeWord 0xF20A).keys[k] = false) ∧
    decode (State.reset.placeWord 0xF107).fetch = .ldVxDt 1 ∧ decode (State.reset.placeWord 0xF015).fetch = .ldDtVx 0 ∧
    decode (State.reset.placeWord 0xF318).fetch = .ldStVx 3 ∧
    decode (State.reset.placeWord 0x0123).fetch = .nop (State.reset.placeWord 0x0123).fetch := by decide

end Sys2Proof.Tests
end

section
/-! PROOFS of the family 40_cycle.md: the words that decode to NOP, and the step around NOP (R107). -/

namespace Sys2Proof

/-! ### The words of NOP -/

theorem primaryKey_lt (w : Word) : primaryKey w < 16 := (w.extractLsb' 12 4).isLt

theorem decodeGroup0_eq_nop_iff (w : Word) :
    decodeGroup0 w = .nop w ↔ nibbleKey w ≠ 0 ∧ nibbleKey w ≠ 14 := by
  unfold decodeGroup0; split <;> simp_all

theorem decodeGroup8_eq_nop_iff (w : Word) :
    decodeGroup8 w = .nop w ↔ 8 ≤ nibbleKey w ∧ nibbleKey w ≠ 14 := by
  unfold decodeGroup8; split <;> simp_all
  omega

theorem decodeGroupE_eq_nop_iff (w : Word) :
    decodeGroupE w = .nop w ↔ nibbleKey w ≠ 1 ∧ nibbleKey w ≠ 14 := by
  unfold decodeGroupE; split <;> simp_all

theorem decodeGroupF_eq_nop_iff (w : Word) :
    decodeGroupF w = .nop w ↔ byteKey w ∉ [0x07, 0x0A, 0x15, 0x18, 0x1E, 0x29, 0x33, 0x55, 0x65] := by
  unfold decodeGroupF; split <;> simp_all

/-- The dispatcher answers NOP on exactly the words of 30_encoding.md R77: the four groups with a secondary table leave
holes, every other group is full. -/
theorem decode_eq_nop_iff (w : Word) : decode w = .nop w ↔ unrecognised w = true := by
  have hk := primaryKey_lt w
  rw [unrecognised_iff, ← decodeGroup0_eq_nop_iff, ← decodeGroup8_eq_nop_iff, ← decodeGroupE_eq_nop_iff,
    ← decodeGroupF_eq_nop_iff]
  unfold decode
  split <;> simp_all
  next => omega -- the dispatcher's last arm: no nibble is above 0xF

/-! ### The rows of the opcode map by their keys, which the row's pattern gives (30_encoding.md R71, R75) -/

theorem match_high_iff {w p : Word} (hp : p.toNat % 4096 = 0) :
    w &&& 0xF000 = p ↔ primaryKey w = p.toNat / 4096 :=
  match_high (by omega)

theorem match_high_low_iff {w p : Word} (hp : p.toNat % 4096 < 16) :
    w &&& 0xF00F = p ↔ primaryKey w = p.toNat / 4096 ∧ nibbleKey w = p.toNat % 4096 :=
  match_high_low hp (by omega)

theorem match_high_byte_iff {w p : Word} (hp : p.toNat % 4096 < 256) :
    w &&& 0xF0FF = p ↔ primaryKey w = p.toNat / 4096 ∧ byteKey w = p.toNat % 4096 :=
  match_high_byte hp (by omega)

theorem no_row_opcodeMapLow_iff (w : Word) : (∀ row ∈ opcodeMapLow, w &&& row.mask ≠ row.pattern) ↔
    ¬ (1 ≤ primaryKey w ∧ primaryKey w ≤ 7) ∧ (primaryKey w = 0 → nibbleKey w ≠ 0 ∧ nibbleKey w ≠ 14) := by
  simp (disch := decide) only [opcodeMapLow, List.mem_cons, List.not_mem_nil, or_false, forall_eq_or_imp, forall_eq,
    ne_eq, match_high_iff, match_high_low_iff, BitVec.reduceToNat]
  omega

theorem no_row_opcodeMapAlu_iff (w : Word) : (∀ row ∈ opcodeMapAlu, w &&& row.mask ≠ row.pattern) ↔
    (primaryKey w = 8 → 8 ≤ nibbleKey w ∧ nibbleKey w ≠ 14) := by
  simp (disch := decide) only [opcodeMapAlu, List.mem_cons, List.not_mem_nil, or_false, forall_eq_or_imp, forall_eq,
    ne_eq, match_high_low_iff, BitVec.reduceToNat]
  omega

theorem no_row_opcodeMapHigh_iff (w : Word) : (∀ row ∈ opcodeMapHigh, w &&& row.mask ≠ row.pattern) ↔
    ¬ (9 ≤ primaryKey w ∧ primaryKey w ≤ 13) ∧ (primaryKey w = 14 → nibbleKey w ≠ 1 ∧ nibbleKey w ≠ 14) := by
  simp (disch := decide) only [opcodeMapHigh, List.mem_cons, List.not_mem_nil, or_false, forall_eq_or_imp, forall_eq,
    ne_eq, match_high_iff, match_high_low_iff, BitVec.reduceToNat]
  omega

theorem no_row_opcodeMapF_iff (w : Word) : (∀ row ∈ opcodeMapF, w &&& row.mask ≠ row.pattern) ↔
    (primaryKey w = 15 → byteKey w ∉ [0x07, 0x0A, 0x15, 0x18, 0x1E, 0x29, 0x33, 0x55, 0x65]) := by
  simp (disch := decide) only [opcodeMapF, List.mem_cons, List.not_mem_nil, or_false, forall_eq_or_imp, forall_eq,
    ne_eq, match_high_byte_iff, BitVec.reduceToNat]
  omega

/-- The words that no row of the flat map takes are those of 30_encoding.md R77. -/
theorem no_row_opcodeMap_iff (w : Word) :
    (∀ row ∈ opcodeMap, w &&& row.mask ≠ row.pattern) ↔ unrecognised w = true := by
  have hk := primaryKey_lt w
  simp only [opcodeMap, List.forall_mem_append, no_row_opcodeMapLow_iff, no_row_opcodeMapAlu_iff,
    no_row_opcodeMapHigh_iff, no_row_opcodeMapF_iff, unrecognised_iff]
  grind

end Sys2Proof

namespace Sys2Proof.Machine

/-! ### The step around NOP -/

theorem exec_nop (w : Word) (s : State) : exec (.nop w) s = .next s := rfl

/-- A fetched NOP: only the pre-increment and the timer stage act (40_cycle.md R103, R106, R107). -/
theorem cycle_of_nop {s : State} {w : Word} (hpc : s.pc.toNat ≤ 0x0FFE) (hw : decode s.fetch = .nop w) :
    cycle s = .next s.advancePc.tickTimers := by
  rw [cycle_in hpc, hw, exec_nop, mapNext]

/-- Settles O59: both sides of the first clause are the unrecognised words; the handler is the identity, so the cycle is
the pre-increment and the timer stage. -/
theorem nopWritesNothing : Obligations.NopWritesNothing := by
  unfold Obligations.NopWritesNothing
  refine ⟨fun w => ?words, exec_nop, fun s hpc hw => ?cycle⟩
  case words => rw [decode_eq_nop_iff, no_row_opcodeMap_iff]
  case cycle =>
    exact ⟨s.advancePc.tickTimers, cycle_of_nop hpc hw, rfl, decrement_toNat s.dt, decrement_toNat s.st, rfl⟩

end Sys2Proof.Machine
end

section
/-! PROOFS of the family 41_arithmetic.md: the words that a row of the opcode map takes, and the instructions that write
Vx and at most the carry (R122 to R128). -/

namespace Sys2Proof

/-! ### The keys that decoding and encoding keep, so that an instruction's own word says which row decodes to it
(30_encoding.md R71, R75) -/

@[simp] theorem primaryKey_wordNNN (op : BitVec 4) (nnn : BitVec 12) : primaryKey (wordNNN op nnn) = op.toNat := by
  rw [primaryKey_eq, wordNNN_toNat]; omega

@[simp] theorem primaryKey_wordXKK (op : BitVec 4) (x : RegIdx) (kk : Byte) :
    primaryKey (wordXKK op x kk) = op.toNat := by
  rw [primaryKey_eq, wordXKK_toNat]; omega

@[simp] theorem primaryKey_wordXYN (op : BitVec 4) (x y : RegIdx) (n : BitVec 4) :
    primaryKey (wordXYN op x y n) = op.toNat := by
  rw [primaryKey_eq, wordXYN_toNat]; omega

@[simp] theorem nibbleKey_wordXKK (op : BitVec 4) (x : RegIdx) (kk : Byte) :
    nibbleKey (wordXKK op x kk) = kk.toNat % 16 := by
  rw [nibbleKey_eq, wordXKK_toNat]; omega

@[simp] theorem nibbleKey_wordXYN (op : BitVec 4) (x y : RegIdx) (n : BitVec 4) :
    nibbleKey (wordXYN op x y n) = n.toNat := by
  rw [nibbleKey_eq, wordXYN_toNat]; omega

theorem primaryKey_encode_decodeGroup0 {w : Word} (h : primaryKey w = 0) :
    primaryKey (encode (decodeGroup0 w)) = 0 := by
  unfold decodeGroup0; split
  · rfl
  · rfl
  · exact h

theorem primaryKey_encode_decodeGroup8 {w : Word} (h : primaryKey w = 8) :
    primaryKey (encode (decodeGroup8 w)) = 8 := by
  unfold decodeGroup8; split <;> simp [encode, h]

theorem primaryKey_encode_decodeGroupE {w : Word} (h : primaryKey w = 14) :
    primaryKey (encode (decodeGroupE w)) = 14 := by
  unfold decodeGroupE; split <;> simp [encode, h]

theorem primaryKey_encode_decodeGroupF {w : Word} (h : primaryKey w = 15) :
    primaryKey (encode (decodeGroupF w)) = 15 := by
  unfold decodeGroupF; split <;> simp [encode, h]

/-- Every word and the canonical word of its instruction are in one group. -/
theorem primaryKey_encode_decode (w : Word) : primaryKey (encode (decode w)) = primaryKey w := by
  unfold decode
  split <;> rename_i h
  case h_1 => rw [primaryKey_encode_decodeGroup0 h, h]
  case h_9 => rw [primaryKey_encode_decodeGroup8 h, h]
  case h_15 => rw [primaryKey_encode_decodeGroupE h, h]
  case h_16 => rw [primaryKey_encode_decodeGroupF h, h]
  all_goals simp [encode, h]

/-- A word of group 8 and the canonical word of its instruction have the same entry of the secondary table. -/
theorem nibbleKey_encode_decodeGroup8 (w : Word) : nibbleKey (encode (decodeGroup8 w)) = nibbleKey w := by
  unfold decodeGroup8
  split <;> rename_i h <;> simp [encode, h]

theorem decode_of_primaryKey_eight {w : Word} (h : primaryKey w = 8) : decode w = decodeGroup8 w := by
  rw [decode, h]; rfl

end Sys2Proof

namespace Sys2Proof.Machine

/-- A row whose mask is 0xF000: its group decodes to `f`, and the instructions of `f` are encoded in that group. -/
theorem decodesAs_of_primaryKey {p : Word} {f : Word → Instr} (k : Nat) (hp : p.toNat = k * 4096)
    (hdecode : ∀ w, primaryKey w = k → decode w = f w) (hencode : ∀ w, primaryKey (encode (f w)) = k) :
    DecodesAs 0xF000 p f := by
  intro w
  refine Iff.trans ⟨fun h => ?key, hdecode w⟩ (match_high hp).symm
  case key => rw [← primaryKey_encode_decode, h, hencode]

/-- A row of group 8: its nibble's entry decodes to `f`, and the instructions of `f` are encoded with that nibble. -/
theorem decodesAs_of_nibbleKey_group8 {p : Word} {f : Word → Instr} (j : BitVec 4) (hp : p.toNat = 8 * 4096 + j.toNat)
    (hdecode : ∀ w, nibbleKey w = j.toNat → decodeGroup8 w = f w)
    (hencode : ∀ w, primaryKey (encode (f w)) = 8 ∧ nibbleKey (encode (f w)) = j.toNat) :
    DecodesAs 0xF00F p f := by
  intro w
  refine Iff.trans ⟨fun h => ?keys, fun ⟨hk, hj⟩ => ?row⟩ (match_high_low j.isLt hp).symm
  case keys =>
    have hk : primaryKey w = 8 := by rw [← primaryKey_encode_decode, h, (hencode w).1]
    rw [decode_of_primaryKey_eight hk] at h
    exact ⟨hk, by rw [← nibbleKey_encode_decodeGroup8, h, (hencode w).2]⟩
  case row => rw [decode_of_primaryKey_eight hk, hdecode w hj]

/-! ### What the instructions do to the state -/

theorem exec_ldImm (x : RegIdx) (kk : Byte) (s : State) : exec (.ldImm x kk) s = .next (s.setReg x kk) := rfl

theorem exec_addImm (x : RegIdx) (kk : Byte) (s : State) :
    exec (.addImm x kk) s = .next (s.setReg x (s.reg x + kk)) := rfl

theorem exec_ldReg (x y : RegIdx) (s : State) : exec (.ldReg x y) s = .next (s.setReg x (s.reg y)) := rfl

theorem exec_orReg (x y : RegIdx) (s : State) : exec (.orReg x y) s = .next (s.setReg x (s.reg x ||| s.reg y)) := rfl

theorem exec_andReg (x y : RegIdx) (s : State) : exec (.andReg x y) s = .next (s.setReg x (s.reg x &&& s.reg y)) := rfl

theorem exec_xorReg (x y : RegIdx) (s : State) : exec (.xorReg x y) s = .next (s.setReg x (s.reg x ^^^ s.reg y)) := rfl

/-- The carry as the sum of the operands decides it (41_arithmetic.md R128). -/
theorem carryFlag_eq (a b : Byte) : carryFlag a b = if 255 < a.toNat + b.toNat then 0x01 else 0x00 := by
  simp only [carryFlag, flagByte, sum9_toNat, decide_eq_true_eq]

/-- ADD Vx, Vy: both writes take values of the old registers (41_arithmetic.md R128). -/
theorem exec_addReg (x y : RegIdx) (s : State) : exec (.addReg x y) s =
    .next ((s.setReg 15 (carryFlag (s.reg x) (s.reg y))).setReg x (s.reg x + s.reg y)) := by
  rw [← sum9_low]; rfl

/-- An instruction that writes one register: its result there, every other register and component kept. -/
theorem result_of_exec_eq_setReg {i : Instr} {s : State} {x : RegIdx} {v : Byte} (h : exec i s = .next (s.setReg x v)) :
    ∃ t, exec i s = .next t ∧ t = { s with regs := t.regs } ∧ ∀ z, t.reg z = if z = x then v else s.reg z :=
  ⟨s.setReg x v, h, setReg_frame s x v, fun z => reg_setReg s x z v⟩

/-! ### The obligations -/

/-- Settles O34: VF is written first, so X = 15 leaves the sum there; both values come from the old registers. -/
theorem addWithCarryResult : Obligations.AddWithCarryResult := by
  unfold Obligations.AddWithCarryResult
  refine ⟨decodesAs_of_nibbleKey_group8 4 rfl (fun w h => ?decode) (fun w => ?encode), fun x y s =>
    ⟨_, exec_addReg x y s, rfl, ?sum, fun hx => ?carry, fun z hzx hz => ?kept⟩⟩
  case decode => rw [decodeGroup8, h]; rfl
  case encode => simp [encode]
  case sum => rw [reg_setReg_self, BitVec.toNat_add]
  case carry => rw [reg_setReg_other _ _ hx.symm, reg_setReg_self, carryFlag_eq]
  case kept => rw [reg_setReg_other _ _ hzx, reg_setReg_other _ _ hz]

/-- Settles O30: group 6 is full, and the handler is one register write. -/
theorem loadImmediateResult : Obligations.LoadImmediateResult := by
  unfold Obligations.LoadImmediateResult
  refine ⟨decodesAs_of_primaryKey 6 rfl (fun w h => ?decode) (fun w => ?encode), fun x kk s =>
    result_of_exec_eq_setReg (exec_ldImm x kk s)⟩
  case decode => rw [decode, h]; rfl
  case encode => simp [encode]

/-- Settles O31: group 7 is full, the handler is one register write, and a sum of bytes is
the sum modulo 256. -/
theorem addImmediateResult : Obligations.AddImmediateResult := by
  unfold Obligations.AddImmediateResult
  refine ⟨decodesAs_of_primaryKey 7 rfl (fun w h => ?decode) (fun w => ?encode), fun x kk s =>
    ⟨_, exec_addImm x kk s, setReg_frame _ _ _, ?sum, fun z hz => reg_setReg_other _ _ hz⟩⟩
  case decode => rw [decode, h]; rfl
  case encode => simp [encode]
  case sum => rw [reg_setReg_self, BitVec.toNat_add]

/-- Settles O32: entry 0 of group 8, one register write; X = Y needs no case of its own. -/
theorem copyRegisterResult : Obligations.CopyRegisterResult := by
  unfold Obligations.CopyRegisterResult
  refine ⟨decodesAs_of_nibbleKey_group8 0 rfl (fun w h => ?decode) (fun w => ?encode), fun x y s =>
    result_of_exec_eq_setReg (exec_ldReg x y s)⟩
  case decode => rw [decodeGroup8, h]; rfl
  case encode => simp [encode]

/-- Settles O33: three entries of group 8, each one register write. -/
theorem bitwiseResults : Obligations.BitwiseResults := by
  unfold Obligations.BitwiseResults
  refine ⟨decodesAs_of_nibbleKey_group8 1 rfl (fun w h => ?decodeOr) (fun w => ?encodeOr),
    decodesAs_of_nibbleKey_group8 2 rfl (fun w h => ?decodeAnd) (fun w => ?encodeAnd),
    decodesAs_of_nibbleKey_group8 3 rfl (fun w h => ?decodeXor) (fun w => ?encodeXor), fun x y s =>
    ⟨result_of_exec_eq_setReg (exec_orReg x y s), result_of_exec_eq_setReg (exec_andReg x y s),
      result_of_exec_eq_setReg (exec_xorReg x y s)⟩⟩
  case decodeOr | decodeAnd | decodeXor => rw [decodeGroup8, h]; rfl
  case encodeOr | encodeAnd | encodeXor => simp [encode]

end Sys2Proof.Machine
end

section
/-! PROOFS of the family 42_memory_index.md: the words that a row of group F takes, and the instructions that write I
(R150, R152). -/

namespace Sys2Proof

/-! ### The byte key of group F (30_encoding.md R71, R75) -/

@[simp] theorem byteKey_wordXKK (op : BitVec 4) (x : RegIdx) (kk : Byte) : byteKey (wordXKK op x kk) = kk.toNat := by
  rw [byteKey_eq, wordXKK_toNat]; omega

/-- A word of group F and the canonical word of its instruction have the same entry of the secondary table. -/
theorem byteKey_encode_decodeGroupF (w : Word) : byteKey (encode (decodeGroupF w)) = byteKey w := by
  unfold decodeGroupF
  split <;> rename_i h <;> simp [encode, h]

theorem decode_of_primaryKey_fifteen {w : Word} (h : primaryKey w = 15) : decode w = decodeGroupF w := by
  rw [decode, h]; rfl

end Sys2Proof

namespace Sys2Proof.Machine

/-- A row of group F: its byte's entry decodes to `f`, and the instructions of `f` are encoded with that byte. -/
theorem decodesAs_of_byteKey_groupF {p : Word} {f : Word → Instr} (j : Byte) (hp : p.toNat = 15 * 4096 + j.toNat)
    (hdecode : ∀ w, byteKey w = j.toNat → decodeGroupF w = f w)
    (hencode : ∀ w, primaryKey (encode (f w)) = 15 ∧ byteKey (encode (f w)) = j.toNat) :
    DecodesAs 0xF0FF p f := by
  intro w
  refine Iff.trans ⟨fun h => ?keys, fun ⟨hk, hj⟩ => ?row⟩ (match_high_byte j.isLt hp).symm
  case keys =>
    obtain ⟨hprimary, hbyte⟩ := hencode w
    have hk : primaryKey w = 15 := by rw [← primaryKey_encode_decode, h, hprimary]
    rw [decode_of_primaryKey_fifteen hk] at h
    exact ⟨hk, by rw [← byteKey_encode_decodeGroupF, h, hbyte]⟩
  case row => rw [decode_of_primaryKey_fifteen hk, hdecode w hj]

/-! ### The addresses written to I -/

@[simp] theorem literalAddr_toNat (nnn : BitVec 12) : (literalAddr nnn).toNat = nnn.toNat :=
  BitVec.toNat_setWidth_of_le (by decide)

/-- The sixteen glyphs lie far below the end of a 16-bit address (42_memory_index.md R152). -/
theorem glyphAddr_toNat {d : Nat} (hd : d < 16) : (glyphAddr d).toNat = 0x050 + 5 * d := by
  rw [glyphAddr, fontBase, BitVec.toNat_ofNat, Nat.mod_eq_of_lt (by omega)]

/-! ### What the instructions do to the state -/

theorem setIndex_frame (s : State) (v : Word) : s.setIndex v = { s with index := (s.setIndex v).index } := rfl

theorem exec_ldI (nnn : BitVec 12) (s : State) : exec (.ldI nnn) s = .next (s.setIndex (literalAddr nnn)) := rfl

/-- LD F, Vx as one write of I, which without a glyph writes the old value back (42_memory_index.md R152). -/
theorem exec_ldF (x : RegIdx) (s : State) : exec (.ldF x) s =
    .next (s.setIndex (if (s.reg x).toNat < 16 then glyphAddr (s.reg x).toNat else s.index)) := by
  have hexec : exec (.ldF x) s = execLdF x s := rfl
  rw [hexec, execLdF]
  split <;> rfl

/-! ### The obligations -/

/-- Settles O40: group A is full, and the handler is one write of I. -/
theorem setIndexResult : Obligations.SetIndexResult := by
  unfold Obligations.SetIndexResult
  refine ⟨decodesAs_of_primaryKey 10 rfl (fun w h => ?decode) (fun w => ?encode), fun nnn s =>
    ⟨_, exec_ldI nnn s, setIndex_frame _ _, literalAddr_toNat nnn⟩⟩
  case decode => rw [decode, h]; rfl
  case encode => simp [encode]

/-- Settles O42: entry 0x29 of group F; the handler is one write of I, split by whether Vx names a glyph. -/
theorem fontAddressResult : Obligations.FontAddressResult := by
  unfold Obligations.FontAddressResult
  refine ⟨decodesAs_of_byteKey_groupF 0x29 rfl (fun w h => ?decode) (fun w => ?encode), fun x s =>
    ⟨_, exec_ldF x s, setIndex_frame _ _, ?address⟩⟩
  case decode => rw [decodeGroupF, h]; rfl
  case encode => simp [encode]
  case address =>
    rw [State.setIndex_index]
    split
    next hglyph => exact glyphAddr_toNat hglyph
    next => rfl

end Sys2Proof.Machine
end

section
/-! PROOFS of the family 43_control.md: the words of RET, and the instructions that write pc from the stack, a literal or
a comparison (R172, R173, R175 to R178). -/

namespace Sys2Proof

/-! ### The nibble key of group 0 (30_encoding.md R71, R75) -/

/-- A word of group 0 and the canonical word of its instruction have the same entry of the secondary table. -/
theorem nibbleKey_encode_decodeGroup0 (w : Word) : nibbleKey (encode (decodeGroup0 w)) = nibbleKey w := by
  unfold decodeGroup0
  split
  next hcls => exact hcls.symm
  next hret => exact hret.symm
  next => rfl

theorem decode_of_primaryKey_zero {w : Word} (h : primaryKey w = 0) : decode w = decodeGroup0 w := by
  rw [decode, h]; rfl

end Sys2Proof

namespace Sys2Proof.Machine

/-- A row of any group `k` whose secondary table `group` is keyed by the low nibble: its nibble's entry decodes to `f`, and
the instructions of `f` are encoded with that nibble. -/
theorem decodesAs_of_nibbleKey {p : Word} {f group : Word → Instr} (k : Nat) (j : BitVec 4)
    (hp : p.toNat = k * 4096 + j.toNat) (hgroup : ∀ {w}, primaryKey w = k → decode w = group w)
    (hkeep : ∀ w, nibbleKey (encode (group w)) = nibbleKey w)
    (hdecode : ∀ w, nibbleKey w = j.toNat → group w = f w)
    (hencode : ∀ w, primaryKey (encode (f w)) = k ∧ nibbleKey (encode (f w)) = j.toNat) :
    DecodesAs 0xF00F p f := by
  intro w
  refine Iff.trans ⟨fun h => ?keys, fun ⟨hk, hj⟩ => ?row⟩ (match_high_low j.isLt hp).symm
  case keys =>
    obtain ⟨hprimary, hnibble⟩ := hencode w
    have hk : primaryKey w = k := by rw [← primaryKey_encode_decode, h, hprimary]
    rw [hgroup hk] at h
    exact ⟨hk, by rw [← hkeep, h, hnibble]⟩
  case row => rw [hgroup hk, hdecode w hj]

/-! ### The condition of a skip as a comparison (43_control.md R171) -/

theorem skipIf_beq (s : State) (a b : Byte) :
    s.skipIf (a == b) = { s with pc := if a = b then s.pc + 2 else s.pc } := by
  simp only [skipIf_eq, beq_iff_eq]

theorem skipIf_bne (s : State) (a b : Byte) :
    s.skipIf (a != b) = { s with pc := if a = b then s.pc else s.pc + 2 } := by
  simp only [skipIf_eq, bne_iff_ne, ne_eq, ite_not]

/-! ### What the instructions do to the state -/

theorem setPc_frame (s : State) (v : Word) : s.setPc v = { s with pc := (s.setPc v).pc } := rfl

theorem exec_jp (nnn : BitVec 12) (s : State) : exec (.jp nnn) s = .next (s.setPc (literalAddr nnn)) := rfl

theorem exec_ret (s : State) : exec .ret s = .next (if s.stackEmpty then s else s.pop.setPc s.top) := rfl

theorem stackEmpty_iff (s : State) : s.stackEmpty = true ↔ s.sp.val = 0 := beq_iff_eq

/-- RET with the stack empty (43_control.md R172). -/
theorem exec_ret_of_empty {s : State} (h : s.sp.val = 0) : exec .ret s = .next s := by
  rw [exec_ret, if_pos ((stackEmpty_iff s).mpr h)]

/-- RET with an entry in use (43_control.md R172). -/
theorem exec_ret_of_nonempty {s : State} (h : s.sp.val ≠ 0) : exec .ret s = .next (s.pop.setPc s.top) := by
  rw [exec_ret, if_neg (mt (stackEmpty_iff s).mp h)]

theorem exec_seImm (x : RegIdx) (kk : Byte) (s : State) :
    exec (.seImm x kk) s = .next (s.skipIf (s.reg x == kk)) := rfl

theorem exec_sneImm (x : RegIdx) (kk : Byte) (s : State) :
    exec (.sneImm x kk) s = .next (s.skipIf (s.reg x != kk)) := rfl

theorem exec_seReg (x y : RegIdx) (s : State) :
    exec (.seReg x y) s = .next (s.skipIf (s.reg x == s.reg y)) := rfl

theorem exec_sneReg (x y : RegIdx) (s : State) :
    exec (.sneReg x y) s = .next (s.skipIf (s.reg x != s.reg y)) := rfl

/-! ### The obligations -/

/-- Settles O46: entry 0xE of group 0; the handler pops into pc, split by whether an entry is in use. -/
theorem returnResult : Obligations.ReturnResult := by
  unfold Obligations.ReturnResult
  refine ⟨decodesAs_of_nibbleKey 0 0xE rfl decode_of_primaryKey_zero nibbleKey_encode_decodeGroup0 (fun w h => ?decode)
    (fun _ => ⟨rfl, rfl⟩), fun s k hk => ⟨s.pop.setPc s.top, exec_ret_of_nonempty (by omega), rfl, top_eq s k hk, ?depth⟩,
    fun s hempty => exec_ret_of_empty hempty⟩
  case decode => rw [decodeGroup0, h]; rfl
  case depth => rw [State.setPc_sp, State.pop_sp, ← hk, Nat.add_sub_cancel]

/-- Settles O49: group 1 is full, and the handler is one write of pc. -/
theorem jumpResult : Obligations.JumpResult := by
  unfold Obligations.JumpResult
  refine ⟨decodesAs_of_primaryKey 1 rfl (fun w h => ?decode) (fun w => ?encode), fun nnn s =>
    ⟨_, exec_jp nnn s, setPc_frame _ _, literalAddr_toNat nnn⟩⟩
  case decode => rw [decode, h]; rfl
  case encode => simp [encode]

/-- Settles O51: groups 3, 4, 5 and 9 are full, and each handler is one skip on a comparison of two bytes. -/
theorem conditionalSkipResults : Obligations.ConditionalSkipResults := by
  unfold Obligations.ConditionalSkipResults
  refine ⟨decodesAs_of_primaryKey 3 rfl (fun w h => ?decodeSeImm) (fun w => ?encodeSeImm),
    decodesAs_of_primaryKey 4 rfl (fun w h => ?decodeSneImm) (fun w => ?encodeSneImm),
    decodesAs_of_primaryKey 5 rfl (fun w h => ?decodeSeReg) (fun w => ?encodeSeReg),
    decodesAs_of_primaryKey 9 rfl (fun w h => ?decodeSneReg) (fun w => ?encodeSneReg), fun x y kk s =>
    ⟨?seImm, ?sneImm, ?seReg, ?sneReg⟩⟩
  case decodeSeImm | decodeSneImm | decodeSeReg | decodeSneReg => rw [decode, h]; rfl
  case encodeSeImm | encodeSneImm | encodeSeReg | encodeSneReg => simp [encode]
  case seImm => rw [exec_seImm, skipIf_beq]
  case sneImm => rw [exec_sneImm, skipIf_bne]
  case seReg => rw [exec_seReg, skipIf_beq]
  case sneReg => rw [exec_sneReg, skipIf_bne]

end Sys2Proof.Machine
end

section
/-! PROOFS of the family 44_framebuffer.md: the words of CLS, and the blank framebuffer at the read port (R191). -/

namespace Sys2Proof.Machine

/-! ### The read port (60_exceptions.md R243) -/

/-- A pixel that is off reads as zero. -/
theorem fbRead_of_pixel_off {s : State} {k : Nat} (h : s.fb.pixel (k / 64) (k % 64) = false) :
    s.fbRead k = 0x00000000 := by
  simp [State.fbRead, h]

/-! ### What the instructions do to the state -/

theorem setFb_frame (s : State) (v : Framebuffer) : s.setFb v = { s with fb := (s.setFb v).fb } := rfl

theorem exec_cls (s : State) : exec .cls s = .next (s.setFb Framebuffer.blank) := rfl

/-! ### The obligations -/

/-- Settles O52: entry 0 of group 0; the handler is one write of the blank framebuffer, whatever it held. -/
theorem clearDisplayResult : Obligations.ClearDisplayResult := by
  unfold Obligations.ClearDisplayResult
  refine ⟨decodesAs_of_nibbleKey 0 0 rfl decode_of_primaryKey_zero nibbleKey_encode_decodeGroup0 (fun w h => ?decode)
    (fun _ => ⟨rfl, rfl⟩), fun s => ⟨s.setFb Framebuffer.blank, exec_cls s, setFb_frame s _, pixel_blank,
    fun k => fbRead_of_pixel_off (pixel_blank _ _)⟩⟩
  case decode => rw [decodeGroup0, h]; rfl

end Sys2Proof.Machine
end

section
/-! PROOFS of the family 45_timer_input.md: the instructions that write Vx from the keypad or the delay timer, and the
step around each of them (R212, R213). -/

namespace Sys2Proof.Machine

/-! ### The step around a fetched instruction (40_cycle.md R100) -/

/-- A fetched instruction whose handler answers a next state: the timer stage runs on that state. -/
theorem cycle_of_exec {s t : State} {i : Instr} (hpc : s.pc.toNat ≤ 0x0FFE) (hi : decode s.fetch = i)
    (hexec : exec i s.advancePc = .next t) : cycle s = .next t.tickTimers := by
  rw [cycle_in hpc, hi, hexec, mapNext]

/-- The wait of LD Vx, K undoes the pre-increment, also where pc + 2 wraps (45_timer_input.md R213). -/
theorem retreatPc_advancePc (s : State) : s.advancePc.retreatPc = s := by
  rw [State.retreatPc, State.advancePc_pc, BitVec.add_sub_cancel]; rfl

/-! ### What the instructions do to the state -/

theorem exec_ldVxDt (x : RegIdx) (s : State) : exec (.ldVxDt x) s = .next (s.setReg x s.dt) := rfl

/-- LD Vx, K with `k` the least pressed key (45_timer_input.md R213). -/
theorem exec_ldVxK_of_pressed (x : RegIdx) {s : State} {k : Fin 16} (hk : s.keys[k] = true)
    (hleast : ∀ j : Fin 16, j < k → s.keys[j] = false) :
    exec (.ldVxK x) s = .next (s.setReg x (BitVec.ofNat 8 k.val)) := by
  have hexec : exec (.ldVxK x) s = execLdVxK x s := rfl
  rw [hexec, execLdVxK, leastKey_eq_some s k hk hleast]

/-- LD Vx, K with no key pressed (45_timer_input.md R213). -/
theorem exec_ldVxK_of_none (x : RegIdx) {s : State} (h : ∀ k : Fin 16, s.keys[k] = false) :
    exec (.ldVxK x) s = .next s.retreatPc := by
  have hexec : exec (.ldVxK x) s = execLdVxK x s := rfl
  rw [hexec, execLdVxK, leastKey_eq_none s h]

/-- A waiting cycle is the timer stage alone. -/
theorem cycle_of_waiting_ldVxK {x : RegIdx} {s : State} (hpc : s.pc.toNat ≤ 0x0FFE) (hi : decode s.fetch = .ldVxK x)
    (h : ∀ k : Fin 16, s.keys[k] = false) : cycle s = .next s.tickTimers := by
  rw [cycle_of_exec hpc hi (exec_ldVxK_of_none (s := s.advancePc) x h), retreatPc_advancePc]

/-! ### The obligations -/

/-- Settles O56: entry 0x0A of group F; the handler is split by whether a key is pressed, and with none the cycle is the
timer stage alone. -/
theorem keyWaitResult : Obligations.KeyWaitResult := by
  unfold Obligations.KeyWaitResult
  refine ⟨decodesAs_of_byteKey_groupF 0x0A rfl (fun w h => ?decode) (fun w => ?encode),
    fun x s k hk hleast =>
      ⟨_, exec_ldVxK_of_pressed x hk hleast, setReg_frame _ _ _, ?key, fun z hz => reg_setReg_other _ _ hz⟩,
    fun x s hnone => exec_ldVxK_of_none x hnone,
    fun x s hpc hi hnone => ⟨s.tickTimers, cycle_of_waiting_ldVxK hpc hi hnone, State.tickTimers_pc s,
      State.tickTimers_regs s, decrement_toNat s.dt, decrement_toNat s.st⟩⟩
  case decode => rw [decodeGroupF, h]; rfl
  case encode => simp [encode]
  case key => rw [reg_setReg_self, BitVec.toNat_ofNat, Nat.mod_eq_of_lt (by omega)]

/-- Settles O57: entry 0x07 of group F; the handler is one register write, and the timer stage after it leaves the
registers alone. -/
theorem readDelayTimerResult : Obligations.ReadDelayTimerResult := by
  unfold Obligations.ReadDelayTimerResult
  refine ⟨decodesAs_of_byteKey_groupF 0x07 rfl (fun w h => ?decode) (fun w => ?encode),
    fun x s => result_of_exec_eq_setReg (exec_ldVxDt x s),
    fun x s hpc hi => ⟨_, cycle_of_exec hpc hi (exec_ldVxDt x s.advancePc), ?value, decrement_toNat s.dt⟩⟩
  case decode => rw [decodeGroupF, h]; rfl
  case encode => simp [encode]
  case value => rw [State.reg_tickTimers, reg_setReg_self, State.advancePc_dt]

end Sys2Proof.Machine
end

section
/-! PROOFS of the family 70_reset_and_hazards.md: the program load and what memory reads after it (R262, R263). -/

namespace Sys2Proof.Machine

/-! ### What the load does to the state -/

theorem loadProgram_frame (s : State) (image : List Byte) :
    s.loadProgram image = { s with mem := (s.loadProgram image).mem } := rfl

@[simp] theorem loadProgram_mem (s : State) (image : List Byte) :
    (s.loadProgram image).mem = s.mem.storeList 0x200 (image.take 3584) := rfl

/-- The program space ends where memory ends, so no store of a load is skipped (70_reset_and_hazards.md R262). -/
theorem read_loadProgram_in (s : State) {image : List Byte} {j : Nat} (h : j < min image.length 3584) :
    (s.loadProgram image).mem.read (0x200 + j) = image.getD j 0x00 := by
  have hj : j < 3584 := by omega
  have hreach : 0x200 + j < 0x200 + (image.take 3584).length := by rw [List.length_take]; omega
  rw [loadProgram_mem, Memory.read_storeList_in _ (by omega) hreach (by omega), Nat.add_sub_cancel_left,
    List.getD_eq_getElem?_getD, List.getElem?_take_of_lt hj, ← List.getD_eq_getElem?_getD]

theorem read_loadProgram_out (s : State) {image : List Byte} {a : Nat}
    (h : a < 0x200 ∨ 0x200 + min image.length 3584 ≤ a) : (s.loadProgram image).mem.read a = s.mem.read a := by
  rw [loadProgram_mem, Memory.read_storeList_out]
  rw [List.length_take]; omega

/-- Cutting an image to the program space beforehand changes nothing (70_reset_and_hazards.md R263). -/
theorem loadProgram_take (s : State) (image : List Byte) :
    s.loadProgram (image.take 3584) = s.loadProgram image := by
  rw [loadProgram_frame, loadProgram_mem, List.take_take, Nat.min_self]; rfl

/-! ### The obligation -/

/-- Settles O18: the load is consecutive stores of the image's first 3584 bytes, all of them in bounds. -/
theorem programLoadCopiesAtMostTheProgramSpace : Obligations.ProgramLoadCopiesAtMostTheProgramSpace := by
  unfold Obligations.ProgramLoadCopiesAtMostTheProgramSpace
  exact fun image s => ⟨loadProgram_frame s image, fun _ h => read_loadProgram_in s h,
    fun _ h => read_loadProgram_out s h, loadProgram_take s image⟩

end Sys2Proof.Machine
end

section
/-! PROOFS of the encoding: every instruction's word decodes back to it, on the used bits every word is the word of its
instruction, and the dispatcher is the flat opcode map (30_encoding.md R70 to R81). -/

namespace Sys2Proof

/-! ### The fields of an encoded word (30_encoding.md R72, R73) -/

@[simp] theorem fieldNNN_wordNNN (op : BitVec 4) (nnn : BitVec 12) : fieldNNN (wordNNN op nnn) = nnn := by
  apply BitVec.eq_of_toNat_eq
  rw [fieldNNN_toNat, wordNNN_toNat]; omega

@[simp] theorem fieldX_wordXKK (op : BitVec 4) (x : RegIdx) (kk : Byte) : fieldX (wordXKK op x kk) = x := by
  apply Fin.ext
  rw [fieldX_val, wordXKK_toNat]; omega

@[simp] theorem fieldKK_wordXKK (op : BitVec 4) (x : RegIdx) (kk : Byte) : fieldKK (wordXKK op x kk) = kk := by
  apply BitVec.eq_of_toNat_eq
  rw [fieldKK_toNat, wordXKK_toNat]; omega

@[simp] theorem fieldX_wordXYN (op : BitVec 4) (x y : RegIdx) (n : BitVec 4) : fieldX (wordXYN op x y n) = x := by
  apply Fin.ext
  rw [fieldX_val, wordXYN_toNat]; omega

@[simp] theorem fieldY_wordXYN (op : BitVec 4) (x y : RegIdx) (n : BitVec 4) : fieldY (wordXYN op x y n) = y := by
  apply Fin.ext
  rw [fieldY_val, wordXYN_toNat]; omega

@[simp] theorem fieldN_wordXYN (op : BitVec 4) (x y : RegIdx) (n : BitVec 4) : fieldN (wordXYN op x y n) = n := by
  apply BitVec.eq_of_toNat_eq
  rw [fieldN_toNat, wordXYN_toNat]; omega

theorem decode_of_primaryKey_fourteen {w : Word} (h : primaryKey w = 14) : decode w = decodeGroupE w := by
  rw [decode, h]; rfl

/-! ### Decoding an encoded word -/

/-- A NOP keeps a word that decodes to NOP (30_encoding.md R77). -/
theorem decode_encode_nop {w : Word} (h : (Instr.nop w).wellFormed = true) : decode (encode (.nop w)) = .nop w :=
  (decode_eq_nop_iff w).mpr h

/-- The canonical word of every well-formed instruction decodes back to it: its keys select the row, its fields are the
operands. -/
theorem decode_encode {i : Instr} (h : i.wellFormed = true) : decode (encode i) = i := by
  cases i
  case nop w => exact decode_encode_nop h
  case cls | ret => rfl
  case ldReg | orReg | andReg | xorReg | addReg | sub | shr | subn | shl =>
    rw [decode_of_primaryKey_eight (by simp [encode])]; simp [decodeGroup8, encode]
  case skp | sknp =>
    rw [decode_of_primaryKey_fourteen (by simp [encode])]; simp [decodeGroupE, encode]
  case ldVxDt | ldVxK | ldDtVx | ldStVx | addI | ldF | ldB | ldMemVx | ldVxMem =>
    rw [decode_of_primaryKey_fifteen (by simp [encode])]; simp [decodeGroupF, encode]
  all_goals simp [decode, encode]

/-! ### A word from its keys and fields (30_encoding.md R72, R73) -/

theorem wordNNN_fields {op : BitVec 4} {w : Word} (h : primaryKey w = op.toNat) : wordNNN op (fieldNNN w) = w := by
  apply BitVec.eq_of_toNat_eq
  rw [wordNNN_toNat, fieldNNN_toNat, ← h, primaryKey_eq]; omega

theorem wordXKK_fields {op : BitVec 4} {w : Word} (h : primaryKey w = op.toNat) :
    wordXKK op (fieldX w) (fieldKK w) = w := by
  apply BitVec.eq_of_toNat_eq
  rw [wordXKK_toNat, fieldX_val, fieldKK_toNat, ← h, primaryKey_eq]; omega

theorem wordXKK_byteKey {op : BitVec 4} {kk : Byte} {w : Word} (h : primaryKey w = op.toNat)
    (hkk : byteKey w = kk.toNat) : wordXKK op (fieldX w) kk = w := by
  rw [← wordXKK_fields h, fieldX_wordXKK]
  exact congrArg _ (BitVec.eq_of_toNat_eq hkk.symm)

theorem wordXYN_fields {op : BitVec 4} {w : Word} (h : primaryKey w = op.toNat) :
    wordXYN op (fieldX w) (fieldY w) (fieldN w) = w := by
  apply BitVec.eq_of_toNat_eq
  rw [wordXYN_toNat, fieldX_val, fieldY_val, fieldN_toNat, ← h, primaryKey_eq]; omega

theorem wordXYN_nibbleKey {op n : BitVec 4} {w : Word} (h : primaryKey w = op.toNat) (hn : nibbleKey w = n.toNat) :
    wordXYN op (fieldX w) (fieldY w) n = w := by
  rw [← wordXYN_fields h, fieldX_wordXYN, fieldY_wordXYN]
  exact congrArg _ (BitVec.eq_of_toNat_eq hn.symm)

/-! ### Words that agree under a mask of used bits (30_encoding.md R76) -/

theorem eq_of_and_full_mask_eq {w v : Word} (h : w &&& 0xFFFF#16 = v &&& 0xFFFF#16) : w = v :=
  BitVec.and_allOnes.symm.trans (h.trans BitVec.and_allOnes)

theorem mask_high_three_toNat (w : Word) : (w &&& 0xFFF0#16).toNat = w.toNat / 16 * 16 := by
  have h : w &&& 0xFFF0#16 = (w >>> 4) <<< 4 := by
    apply BitVec.eq_of_getLsbD_eq
    intro i hi
    interval_cases i <;> simp
  have := w.isLt
  rw [h]
  simp only [BitVec.toNat_shiftLeft, BitVec.toNat_ushiftRight, Nat.shiftRight_eq_div_pow, Nat.shiftLeft_eq]; omega

theorem mask_high_byte_low_toNat (w : Word) : (w &&& 0xFF0F#16).toNat = w.toNat / 256 * 256 + w.toNat % 16 := by
  have hsplit : w &&& 0xFF0F#16 = (w >>> 8) <<< 8 ||| (w &&& 0x000F#16) := by
    apply BitVec.eq_of_getLsbD_eq
    intro i hi
    interval_cases i <;> simp
  have hhigh : ((w >>> 8) <<< 8).toNat = (w.toNat / 256) <<< 8 := by
    have := w.isLt
    simp only [BitVec.toNat_shiftLeft, BitVec.toNat_ushiftRight, Nat.shiftRight_eq_div_pow, Nat.shiftLeft_eq]; omega
  have hlow : (w &&& 0x000F#16).toNat = w.toNat % 16 := by
    rw [BitVec.toNat_and]; exact Nat.and_two_pow_sub_one_eq_mod w.toNat 4
  rw [hsplit, BitVec.toNat_or, hhigh, hlow, ← Nat.shiftLeft_add_eq_or_of_lt (by omega : w.toNat % 16 < 2 ^ 8),
    Nat.shiftLeft_eq]

theorem agree_high_low_iff {w v : Word} :
    w &&& 0xF00F#16 = v &&& 0xF00F#16 ↔ primaryKey w = primaryKey v ∧ nibbleKey w = nibbleKey v := by
  rw [← BitVec.toNat_inj, mask_high_low_toNat, mask_high_low_toNat]
  simp only [primaryKey_eq, nibbleKey_eq]; omega

theorem agree_high_three_iff {w v : Word} :
    w &&& 0xFFF0#16 = v &&& 0xFFF0#16 ↔ primaryKey w = primaryKey v ∧ fieldX w = fieldX v ∧ fieldY w = fieldY v := by
  have := w.isLt
  have := v.isLt
  rw [← BitVec.toNat_inj, mask_high_three_toNat, mask_high_three_toNat]
  simp only [primaryKey_eq, Fin.ext_iff, fieldX_val, fieldY_val]; omega

theorem agree_high_byte_low_iff {w v : Word} : w &&& 0xFF0F#16 = v &&& 0xFF0F#16 ↔
    primaryKey w = primaryKey v ∧ fieldX w = fieldX v ∧ nibbleKey w = nibbleKey v := by
  have := w.isLt
  have := v.isLt
  rw [← BitVec.toNat_inj, mask_high_byte_low_toNat, mask_high_byte_low_toNat]
  simp only [primaryKey_eq, Fin.ext_iff, fieldX_val, nibbleKey_eq]; omega

/-! ### Encoding a decoded word -/

/-- The canonical word of `i` is `w` on the bits that are compared or read for `i`. -/
def AgreesOnUsedBits (i : Instr) (w : Word) : Prop := encode i &&& usedBits i = w &&& usedBits i

theorem agreesOnUsedBits_of_eq {i : Instr} {w : Word} (h : encode i = w) : AgreesOnUsedBits i w :=
  congrArg (· &&& usedBits i) h

theorem decodeGroup0_agrees {w : Word} (h : primaryKey w = 0) : AgreesOnUsedBits (decodeGroup0 w) w := by
  unfold decodeGroup0
  split
  next hcls => exact agree_high_low_iff.mpr ⟨h.symm, hcls.symm⟩
  next hret => exact agree_high_low_iff.mpr ⟨h.symm, hret.symm⟩
  next => rfl

theorem decodeGroup8_agrees {w : Word} (h : primaryKey w = 8) : AgreesOnUsedBits (decodeGroup8 w) w := by
  unfold decodeGroup8
  split <;> rename_i hn
  case h_7 | h_9 => exact agree_high_byte_low_iff.mpr (by simp [encode, h, hn])
  case h_10 => rfl
  all_goals exact agreesOnUsedBits_of_eq (wordXYN_nibbleKey h hn)

theorem decodeGroupE_agrees {w : Word} (h : primaryKey w = 14) : AgreesOnUsedBits (decodeGroupE w) w := by
  unfold decodeGroupE
  split <;> rename_i hn
  case h_1 | h_2 => exact agree_high_byte_low_iff.mpr (by simp [encode, h, hn])
  case h_3 => rfl

theorem decodeGroupF_agrees {w : Word} (h : primaryKey w = 15) : AgreesOnUsedBits (decodeGroupF w) w := by
  unfold decodeGroupF
  split <;> rename_i hn
  case h_10 => rfl
  all_goals exact agreesOnUsedBits_of_eq (wordXKK_byteKey h hn)

/-- Every word is the word of its instruction, but for the ignored bits (30_encoding.md R73, R76). -/
theorem decode_agrees (w : Word) : AgreesOnUsedBits (decode w) w := by
  unfold decode
  split <;> rename_i h
  case h_1 => exact decodeGroup0_agrees h
  case h_2 | h_3 | h_11 | h_12 => exact agreesOnUsedBits_of_eq (wordNNN_fields h)
  case h_4 | h_5 | h_7 | h_8 | h_13 => exact agreesOnUsedBits_of_eq (wordXKK_fields h)
  case h_6 | h_10 => exact agree_high_three_iff.mpr (by simp [encode, h])
  case h_9 => exact decodeGroup8_agrees h
  case h_14 => exact agreesOnUsedBits_of_eq (wordXYN_fields h)
  case h_15 => exact decodeGroupE_agrees h
  case h_16 => exact decodeGroupF_agrees h
  case h_17 => rfl

/-! ### Totality (30_encoding.md R78) -/

/-- A decoded NOP keeps the word it was decoded from. -/
theorem word_of_decode_eq_nop {w v : Word} (h : decode w = .nop v) : v = w := by
  have hagrees := decode_agrees w
  rw [h] at hagrees
  exact eq_of_and_full_mask_eq hagrees

theorem wellFormed_decode (w : Word) : (decode w).wellFormed = true := by
  cases hw : decode w
  case nop v =>
    obtain rfl := word_of_decode_eq_nop hw
    exact (decode_eq_nop_iff v).mp hw
  all_goals rfl

/-! ### The ignored bits (30_encoding.md R76) -/

/-- A word that agrees with a well-formed instruction's word on its used bits decodes to that instruction: the keys and
the operands lie in those bits. -/
theorem decode_of_agrees {i : Instr} {w : Word} (hi : i.wellFormed = true) (h : AgreesOnUsedBits i w) :
    decode w = i := by
  cases i
  case cls | ret =>
    obtain ⟨hk, hn⟩ := agree_high_low_iff.mp h
    rw [decode_of_primaryKey_zero hk.symm, decodeGroup0, ← hn]; rfl
  case seReg | sneReg =>
    obtain ⟨hk, hx, hy⟩ := agree_high_three_iff.mp h
    simp only [encode, primaryKey_wordXYN, fieldX_wordXYN, fieldY_wordXYN] at hk hx hy
    rw [decode, ← hk, ← hx, ← hy]; rfl
  case shr | shl =>
    obtain ⟨hk, hx, hn⟩ := agree_high_byte_low_iff.mp h
    simp only [encode, primaryKey_wordXKK, fieldX_wordXKK, nibbleKey_wordXKK] at hk hx hn
    rw [decode_of_primaryKey_eight hk.symm, decodeGroup8, ← hx, ← hn]; rfl
  case skp | sknp =>
    obtain ⟨hk, hx, hn⟩ := agree_high_byte_low_iff.mp h
    simp only [encode, primaryKey_wordXKK, fieldX_wordXKK, nibbleKey_wordXKK] at hk hx hn
    rw [decode_of_primaryKey_fourteen hk.symm, decodeGroupE, ← hx, ← hn]; rfl
  all_goals -- every bit is used
    rw [← eq_of_and_full_mask_eq h]
    exact decode_encode hi

/-! ### The opcode map (30_encoding.md R75) -/

open Laws.EncodingRow in
/-- Every instruction's canonical word lies in its own row, or it is a NOP. -/
theorem encode_lies_in_own_row : (i : Instr) → Statement i
  | .cls => cls
  | .ret => ret
  | .jp nnn => jp nnn
  | .call nnn => call nnn
  | .seImm x kk => seImm x kk
  | .sneImm x kk => sneImm x kk
  | .seReg x y => seReg x y
  | .ldImm x kk => ldImm x kk
  | .addImm x kk => addImm x kk
  | .ldReg x y => ldReg x y
  | .orReg x y => orReg x y
  | .andReg x y => andReg x y
  | .xorReg x y => xorReg x y
  | .addReg x y => addReg x y
  | .sub x y => sub x y
  | .shr x => shr x
  | .subn x y => subn x y
  | .shl x => shl x
  | .sneReg x y => sneReg x y
  | .ldI nnn => ldI nnn
  | .jpV0 nnn => jpV0 nnn
  | .rnd x kk => rnd x kk
  | .drw x y n => drw x y n
  | .skp x => skp x
  | .sknp x => sknp x
  | .ldVxDt x => ldVxDt x
  | .ldVxK x => ldVxK x
  | .ldDtVx x => ldDtVx x
  | .ldStVx x => ldStVx x
  | .addI x => addI x
  | .ldF x => ldF x
  | .ldB x => ldB x
  | .ldMemVx x => ldMemVx x
  | .ldVxMem x => ldVxMem x
  | .nop w => nop w

/-- What a row compares is used by every instruction of the row. -/
theorem row_mask_used {i : Instr} {row : OpcodeRow} (hrow : row ∈ opcodeMap) (hname : row.mnemonic = i.mnemonic) :
    usedBits i &&& row.mask = row.mask := by
  revert row
  cases i <;> (simp only [Instr.mnemonic, usedBits]; decide)

/-- Any two rows differ on a bit that both compare. -/
theorem row_eq_of_patterns_agree : ∀ r ∈ opcodeMap, ∀ q ∈ opcodeMap,
    r.pattern &&& q.mask = q.pattern &&& r.mask → r = q := by
  decide +kernel

theorem row_eq_of_mnemonic_eq : ∀ r ∈ opcodeMap, ∀ q ∈ opcodeMap, r.mnemonic = q.mnemonic → r = q := by
  decide +kernel

theorem row_mnemonic_ne_nop : ∀ row ∈ opcodeMap, row.mnemonic ≠ "NOP" := by
  decide

/-- The rows are disjoint. -/
theorem row_unique {w : Word} {r q : OpcodeRow} (hr : r ∈ opcodeMap) (hq : q ∈ opcodeMap)
    (hwr : w &&& r.mask = r.pattern) (hwq : w &&& q.mask = q.pattern) : r = q := by
  apply row_eq_of_patterns_agree r hr q hq
  rw [← hwr, ← hwq, BitVec.and_assoc, BitVec.and_assoc, BitVec.and_comm q.mask]

/-- The canonical word of an instruction and every word that agrees with it on the used bits lie in the same row. -/
theorem matches_row_of_agrees {i : Instr} {w : Word} {row : OpcodeRow} (hrow : row ∈ opcodeMap)
    (hname : row.mnemonic = i.mnemonic) (h : AgreesOnUsedBits i w) (hi : encode i &&& row.mask = row.pattern) :
    w &&& row.mask = row.pattern := by
  have hused := row_mask_used hrow hname
  calc w &&& row.mask
      = w &&& usedBits i &&& row.mask := by rw [BitVec.and_assoc, hused]
    _ = encode i &&& usedBits i &&& row.mask := by rw [h]
    _ = row.pattern := by rw [BitVec.and_assoc, hused, hi]

theorem eq_nop_of_mnemonic {i : Instr} (h : i.mnemonic = "NOP") : ∃ w, i = .nop w := by
  cases i
  case nop w => exact ⟨w, rfl⟩
  all_goals simp [Instr.mnemonic] at h

theorem mnemonic_decode_eq_nop_iff (w : Word) : (decode w).mnemonic = "NOP" ↔ unrecognised w = true := by
  rw [← decode_eq_nop_iff]
  constructor
  · intro h
    obtain ⟨v, hv⟩ := eq_nop_of_mnemonic h
    rw [hv, word_of_decode_eq_nop hv]
  · intro h
    rw [h]; rfl

/-- A recognised word lies in a row that has its instruction's mnemonic. -/
theorem exists_row_of_recognised {w : Word} (h : (decode w).mnemonic ≠ "NOP") :
    ∃ row ∈ opcodeMap, row.mnemonic = (decode w).mnemonic ∧ w &&& row.mask = row.pattern := by
  rcases encode_lies_in_own_row (decode w) (wellFormed_decode w) with ⟨hnop, -⟩ | ⟨row, hrow, hname, hmatch⟩
  · exact absurd hnop h
  · exact ⟨row, hrow, hname, matches_row_of_agrees hrow hname (decode_agrees w) hmatch⟩

/-- The dispatcher and the flat map select the same row. -/
theorem matches_row_iff (w : Word) {row : OpcodeRow} (hrow : row ∈ opcodeMap) :
    w &&& row.mask = row.pattern ↔ (decode w).mnemonic = row.mnemonic := by
  have hrecognised : (decode w).mnemonic = row.mnemonic ∨ w &&& row.mask = row.pattern →
      (decode w).mnemonic ≠ "NOP" := by
    rintro (hname | hmatch) hnop
    · exact row_mnemonic_ne_nop row hrow (hname.symm.trans hnop)
    · exact (no_row_opcodeMap_iff w).mpr ((mnemonic_decode_eq_nop_iff w).mp hnop) row hrow hmatch
  constructor <;> intro h
  · obtain ⟨own, hown, hname, hmatch⟩ := exists_row_of_recognised (hrecognised (.inr h))
    rw [← hname, row_unique hown hrow hmatch h]
  · obtain ⟨own, hown, hname, hmatch⟩ := exists_row_of_recognised (hrecognised (.inl h))
    rwa [← row_eq_of_mnemonic_eq own hown row hrow (hname.trans h)]

/-! ### The obligations -/

/-- Settles O3: the decoder joins the two bytes again, and the word decodes back by its keys and fields. -/
theorem decodeOfEncodeIsIdentity : Obligations.DecodeOfEncodeIsIdentity := by
  unfold Obligations.DecodeOfEncodeIsIdentity
  intro i rest hi
  rw [encodeBytes, decodeBytes_bytesOfWord, decode_encode hi]

/-- Settles O4: by the groups of the dispatcher, a word is put together again from its keys and fields. -/
theorem encodeOfDecodeKeepsUsedBits : Obligations.EncodeOfDecodeKeepsUsedBits := by
  unfold Obligations.EncodeOfDecodeKeepsUsedBits
  exact decode_agrees

/-- Settles O5: both words agree with the canonical word of the one instruction on its used bits. -/
theorem ignoredBitsDoNotMatter : Obligations.IgnoredBitsDoNotMatter := by
  unfold Obligations.IgnoredBitsDoNotMatter
  exact fun w v h => decode_of_agrees (wellFormed_decode w) ((decode_agrees w).trans h)

/-- Settles O6: the row of the canonical word is the row of every word of the instruction, since a row compares used bits
only, and the rows are disjoint. -/
theorem dispatcherAgreesWithOpcodeMap : Obligations.DispatcherAgreesWithOpcodeMap := by
  unfold Obligations.DispatcherAgreesWithOpcodeMap
  exact fun w => ⟨fun row hrow => matches_row_iff w hrow, fun r hr q hq => row_unique hr hq,
    (mnemonic_decode_eq_nop_iff w).trans (no_row_opcodeMap_iff w).symm⟩

/-- Settles O7: the one instruction that can be ill formed is a NOP, and a decoded NOP keeps its unrecognised word. -/
theorem decodeIsTotalAndNopsTheUnrecognised : Obligations.DecodeIsTotalAndNopsTheUnrecognised := by
  unfold Obligations.DecodeIsTotalAndNopsTheUnrecognised
  exact fun w => ⟨wellFormed_decode w, decode_eq_nop_iff w⟩

/-- Settles O1: the dispatcher evaluated on each of the thirteen words. -/
theorem specWordsDecode : Obligations.SpecWordsDecode := by
  unfold Obligations.SpecWordsDecode
  decide

/-- Settles O2: each field is a slice of the word, as a quotient and a remainder. -/
theorem operandFieldPositions : Obligations.OperandFieldPositions := by
  unfold Obligations.OperandFieldPositions
  exact fun w => ⟨fieldX_val w, fieldY_val w, fieldN_toNat w, fieldKK_toNat w, fieldNNN_toNat w⟩

end Sys2Proof
end

section
/-! PROOFS of the instructions that write VF as a flag and then Vx in either order, and of RND (41_arithmetic.md R121, R129
to R133). -/

namespace Sys2Proof.Machine

/-! ### The two assignments under either setting of ALU_FLAG_ALIAS (41_arithmetic.md R121) -/

section
variable {order : AluFlagAlias} {flag : Byte} {x : RegIdx} {result : State → Byte} {s : State}

theorem reg_flagThenResult_sequential (h : order = .sequential) :
    (flagThenResult order flag x result s).reg x = result (s.setReg 15 flag) := by
  rw [reg_flagThenResult, if_pos rfl, h]

theorem reg_flagThenResult_snapshot (h : order = .snapshot) : (flagThenResult order flag x result s).reg x = result s := by
  rw [reg_flagThenResult, if_pos rfl, h]

/-- The order does not matter to a result that does not read VF. -/
theorem reg_flagThenResult_of_unread (h : result (s.setReg 15 flag) = result s) :
    (flagThenResult order flag x result s).reg x = result s := by
  cases ho : order
  case sequential => rw [reg_flagThenResult_sequential rfl, h]
  case snapshot => rw [reg_flagThenResult_snapshot rfl]

theorem reg_flagThenResult_flag (hx : x ≠ 15) : (flagThenResult order flag x result s).reg 15 = flag := by
  rw [reg_flagThenResult, if_neg hx.symm, if_pos rfl]

theorem reg_flagThenResult_kept {z : RegIdx} (hzx : z ≠ x) (hz : z ≠ 15) :
    (flagThenResult order flag x result s).reg z = s.reg z := by
  rw [reg_flagThenResult, if_neg hzx, if_neg hz]

end

/-! ### The flags and the shifted bytes as numbers -/

theorem notBorrowFlag_eq (a b : Byte) : notBorrowFlag a b = if b.toNat ≤ a.toNat then 0x01 else 0x00 := by
  simp only [notBorrowFlag, flagByte, decide_eq_true_eq]

theorem shrFlag_toNat (a : Byte) : (shrFlag a).toNat = a.toNat % 2 := by
  rw [shrFlag, BitVec.toNat_and]; exact Nat.and_two_pow_sub_one_eq_mod a.toNat 1

theorem shlFlag_toNat (a : Byte) : (shlFlag a).toNat = a.toNat / 128 := by
  have := a.isLt
  rw [shlFlag, BitVec.toNat_and, BitVec.toNat_ushiftRight, Nat.shiftRight_eq_div_pow]
  exact (Nat.and_two_pow_sub_one_eq_mod _ 1).trans (by omega)

theorem toNat_shr_one (a : Byte) : (a >>> 1).toNat = a.toNat / 2 := by
  rw [BitVec.toNat_ushiftRight, Nat.shiftRight_eq_div_pow, pow_one]

theorem toNat_shl_one (a : Byte) : (a <<< 1).toNat = a.toNat * 2 % 256 := by
  rw [BitVec.toNat_shiftLeft, Nat.shiftLeft_eq, pow_one]

/-- SHR of VF after its own flag write shifts a bit out of nothing (41_arithmetic.md R130). -/
theorem shrFlag_shr_one (a : Byte) : shrFlag a >>> 1 = 0x00 := by
  apply BitVec.eq_of_toNat_eq
  rw [toNat_shr_one, shrFlag_toNat]
  exact Nat.div_eq_of_lt (Nat.mod_lt _ (by decide))

/-- SHL of VF after its own flag write doubles the flag (41_arithmetic.md R132). -/
theorem toNat_shlFlag_shl_one (a : Byte) : (shlFlag a <<< 1).toNat = a.toNat / 128 * 2 := by
  have := a.isLt
  rw [toNat_shl_one, shlFlag_toNat]; omega

/-! ### What the instructions do to the state -/

theorem exec_sub (x y : RegIdx) (s : State) : exec (.sub x y) s = .next (subWith s.policies.aluFlagAlias x y s) := rfl

theorem exec_subn (x y : RegIdx) (s : State) : exec (.subn x y) s = .next (subnWith s.policies.aluFlagAlias x y s) := rfl

theorem exec_shr (x : RegIdx) (s : State) : exec (.shr x) s = .next (shrWith s.policies.aluFlagAlias x s) := rfl

theorem exec_shl (x : RegIdx) (s : State) : exec (.shl x) s = .next (shlWith s.policies.aluFlagAlias x s) := rfl

theorem exec_rnd (x : RegIdx) (kk : Byte) (s : State) :
    exec (.rnd x kk) s = .next (s.advanceDraw.setReg x (Config.rnd s.draws &&& kk)) := rfl

/-- An instruction that subtracts Vn from Vm into Vx: SUB has m = x, SUBN has n = x. -/
theorem difference_result {i : Instr} {s : State} {f : Byte} (x m n : RegIdx)
    (h : exec i s = .next (flagThenResult s.policies.aluFlagAlias (notBorrowFlag (s.reg m) (s.reg n)) x
      (fun t => t.reg m - t.reg n) s))
    (hf : f = if (s.reg n).toNat ≤ (s.reg m).toNat then 0x01 else 0x00) :
    ∃ t, exec i s = .next t ∧ t = { s with regs := t.regs } ∧
      (s.policies.aluFlagAlias = .sequential →
        t.reg x = (if m = 15 then f else s.reg m) - (if n = 15 then f else s.reg n)) ∧
      (s.policies.aluFlagAlias = .snapshot → t.reg x = s.reg m - s.reg n) ∧
      (x ≠ 15 → t.reg 15 = f) ∧ ∀ z, z ≠ x → z ≠ 15 → t.reg z = s.reg z := by
  rw [notBorrowFlag_eq, ← hf] at h
  refine ⟨_, h, flagThenResult_frame _ _ _ _ _, fun hseq => ?_, reg_flagThenResult_snapshot, reg_flagThenResult_flag,
    fun z => reg_flagThenResult_kept⟩
  rw [reg_flagThenResult_sequential hseq, reg_setReg, reg_setReg]

/-- An instruction that shifts Vx by `shift`, the bit shifted out being `out`. -/
theorem shift_result {i : Instr} {s : State} {x : RegIdx} (out shift : Byte → Byte)
    (h : exec i s = .next (flagThenResult s.policies.aluFlagAlias (out (s.reg x)) x (fun t => shift (t.reg x)) s)) :
    ∃ t, exec i s = .next t ∧ t = { s with regs := t.regs } ∧
      (x ≠ 15 ∨ s.policies.aluFlagAlias = .snapshot → t.reg x = shift (s.reg x)) ∧
      (x = 15 → s.policies.aluFlagAlias = .sequential → t.reg 15 = shift (out (s.reg x))) ∧
      (x ≠ 15 → t.reg 15 = out (s.reg x)) ∧ ∀ z, z ≠ x → z ≠ 15 → t.reg z = s.reg z := by
  refine ⟨_, h, flagThenResult_frame _ _ _ _ _, ?old, ?new, reg_flagThenResult_flag, fun z => reg_flagThenResult_kept⟩
  case old =>
    rintro (hx | hsnap)
    · exact reg_flagThenResult_of_unread (by rw [reg_setReg_other _ _ hx])
    · exact reg_flagThenResult_snapshot hsnap
  case new =>
    rintro rfl hseq
    rw [reg_flagThenResult_sequential hseq, reg_setReg_self]

/-! ### The obligations -/

/-- Settles O35: entry 5 of group 8, the flag and then the difference. -/
theorem subtractResult : Obligations.SubtractResult := by
  unfold Obligations.SubtractResult
  refine ⟨decodesAs_of_nibbleKey_group8 5 rfl (fun w h => ?decode) (fun w => ?encode), ?result⟩
  case decode => rw [decodeGroup8, h]; rfl
  case encode => simp [encode]
  case result =>
    rintro x y s a b f rfl rfl hf
    exact difference_result x x y (exec_sub x y s) hf

/-- Settles O36: entry 7 of group 8, the flag and then the reversed difference. -/
theorem subtractReversedResult : Obligations.SubtractReversedResult := by
  unfold Obligations.SubtractReversedResult
  refine ⟨decodesAs_of_nibbleKey_group8 7 rfl (fun w h => ?decode) (fun w => ?encode), ?result⟩
  case decode => rw [decodeGroup8, h]; rfl
  case encode => simp [encode]
  case result =>
    rintro x y s a b f rfl rfl hf
    exact difference_result x y x (exec_subn x y s) hf

/-- Settles O37: entries 6 and 0xE of group 8; only a shift of VF itself depends on the order of the writes. -/
theorem shiftResults : Obligations.ShiftResults := by
  unfold Obligations.ShiftResults
  refine ⟨decodesAs_of_nibbleKey_group8 6 rfl (fun w h => ?decodeShr) (fun w => ?encodeShr),
    decodesAs_of_nibbleKey_group8 0xE rfl (fun w h => ?decodeShl) (fun w => ?encodeShl), ?results⟩
  case decodeShr | decodeShl => rw [decodeGroup8, h]; rfl
  case encodeShr | encodeShl => simp [encode]
  case results =>
    rintro x s a rfl
    constructor
    · obtain ⟨t, hexec, hframe, hold, hnew, hflag, hkept⟩ := shift_result shrFlag (· >>> 1) (exec_shr x s)
      exact ⟨t, hexec, hframe, fun h => by rw [hold h, toNat_shr_one], fun hx hseq => by rw [hnew hx hseq, shrFlag_shr_one],
        fun hx => by rw [hflag hx, shrFlag_toNat], hkept⟩
    · obtain ⟨t, hexec, hframe, hold, hnew, hflag, hkept⟩ := shift_result shlFlag (· <<< 1) (exec_shl x s)
      exact ⟨t, hexec, hframe, fun h => by rw [hold h, toNat_shl_one],
        fun hx hseq => by rw [hnew hx hseq, toNat_shlFlag_shl_one], fun hx => by rw [hflag hx, shlFlag_toNat], hkept⟩

/-- Settles O39: group C is full; one draw and one register write of the drawn byte under the mask. -/
theorem randomAndResult : Obligations.RandomAndResult := by
  unfold Obligations.RandomAndResult
  refine ⟨decodesAs_of_primaryKey 12 rfl (fun w h => ?decode) (fun w => ?encode), fun x kk s =>
    ⟨_, exec_rnd x kk s, rfl, reg_setReg_self _ _ _, fun b hb => ?clear, fun hkk => ?whole,
      fun z hz => reg_setReg_other _ _ hz⟩⟩
  case decode => rw [decode, h]; rfl
  case encode => simp [encode]
  case clear => rw [reg_setReg_self, BitVec.getLsbD_and, hb, Bool.and_false]
  case whole => rw [reg_setReg_self, hkk]; exact BitVec.and_allOnes

end Sys2Proof.Machine
end

section
/-! PROOFS of ADD I and of the stores and loads at I (42_memory_index.md R151, R153 to R155), and of the fetch that sees a
store (20_memory.md R62). -/

namespace Sys2Proof.Machine

/-! ### What the instructions do to the state -/

theorem effAddr_eq_add (s : State) (k : Nat) : s.effAddr k = s.effAddr 0 + k := rfl

/-- ADD I, Vx as one write of I, which out of bounds writes the old value back (42_memory_index.md R151). -/
theorem exec_addI (x : RegIdx) (s : State) : exec (.addI x) s =
    .next (s.setIndex (if s.indexSum x < 4096 then BitVec.ofNat 16 (s.indexSum x) else s.index)) := by
  have hexec : exec (.addI x) s = execAddI x s := rfl
  rw [hexec, execAddI]
  simp only [inBounds_iff]
  split <;> rfl

theorem exec_ldB (x : RegIdx) (s : State) :
    exec (.ldB x) s = .next (s.storeBytes (s.effAddr 0) (bcdDigits (s.reg x))) := rfl

theorem exec_ldMemVx (x : RegIdx) (s : State) :
    exec (.ldMemVx x) s = .next (s.storeBytes (s.effAddr 0) (s.firstRegs (x.val + 1))) := rfl

theorem exec_ldVxMem (x : RegIdx) (s : State) :
    exec (.ldVxMem x) s = .next (State.loadRegs (s.effAddr 0) (x.val + 1) s) := rfl

theorem storeBytes_frame (s : State) (a : Nat) (bs : List Byte) :
    s.storeBytes a bs = { s with mem := (s.storeBytes a bs).mem } := rfl

/-- What LD [I], Vx leaves where it stores (42_memory_index.md R154). -/
theorem read_dumped_in (s : State) {x k : RegIdx} (hk : k ≤ x) (hb : s.effAddr k.val < 4096) :
    (s.mem.storeList (s.effAddr 0) (s.firstRegs (x.val + 1))).read (s.effAddr k.val) = s.reg k := by
  have hlt : k.val < x.val + 1 := Nat.lt_succ_of_le hk
  have hlen := firstRegs_length s (x.val + 1) x.isLt
  rw [effAddr_eq_add s k.val] at hb ⊢
  rw [Memory.read_storeList_in _ (by omega) (by omega) hb, Nat.add_sub_cancel_left, firstRegs_getD s _ k hlt]

/-- What LD [I], Vx leaves elsewhere. -/
theorem read_dumped_out (s : State) {x : RegIdx} {a : Nat} (h : (∀ k : RegIdx, k ≤ x → a ≠ s.effAddr k.val) ∨ 4096 ≤ a) :
    (s.mem.storeList (s.effAddr 0) (s.firstRegs (x.val + 1))).read a = s.mem.read a := by
  apply Memory.read_storeList_out
  rw [firstRegs_length s (x.val + 1) x.isLt]
  rcases h with hother | hout
  · by_contra hin
    have hk : a - s.effAddr 0 < 16 := by omega
    refine hother ⟨a - s.effAddr 0, hk⟩ (Fin.mk_le_of_le_val (by omega)) ?_
    rw [effAddr_eq_add]
    exact (Nat.add_sub_cancel' (by omega)).symm
  · exact .inr (.inr hout)

/-! ### The decimal digits (42_memory_index.md R153) -/

theorem bcdDigits_toNat (v : Byte) : (bcdDigits v).map BitVec.toNat =
    [v.toNat / 100, v.toNat / 10 % 10, v.toNat % 10] := by
  have := v.isLt
  simp only [bcdDigits, List.map_cons, List.map_nil, BitVec.toNat_ofNat, List.cons.injEq, and_true]
  omega

/-- What LD B, Vx leaves `k` bytes past I. -/
theorem read_bcd_in (s : State) (v : Byte) {k : Nat} (hk : k < 3) (hb : s.effAddr k < 4096) :
    ((s.mem.storeList (s.effAddr 0) (bcdDigits v)).read (s.effAddr k)).toNat =
      [v.toNat / 100, v.toNat / 10 % 10, v.toNat % 10].getD k 0 := by
  have hlen : (bcdDigits v).length = 3 := rfl
  rw [effAddr_eq_add s k] at hb ⊢
  rw [Memory.read_storeList_in _ (by omega) (by omega) hb, Nat.add_sub_cancel_left, ← bcdDigits_toNat]
  exact (List.getD_map _ _ BitVec.toNat).symm

/-- What LD B, Vx leaves at every address, each digit skipped alone when out of bounds. -/
theorem read_bcd (s : State) (v : Byte) (a : Nat) :
    ((s.mem.storeList (s.effAddr 0) (bcdDigits v)).read a).toNat =
      if 4096 ≤ a then (s.mem.read a).toNat
      else if a = s.effAddr 0 then v.toNat / 100
      else if a = s.effAddr 1 then v.toNat / 10 % 10
      else if a = s.effAddr 2 then v.toNat % 10
      else (s.mem.read a).toNat := by
  split_ifs with hout h0 h1 h2
  · rw [Memory.read_storeList_out _ (.inr (.inr hout))]
  · rw [h0, read_bcd_in s v (by decide) (by omega)]; rfl
  · rw [h1, read_bcd_in s v (by decide) (by omega)]; rfl
  · rw [h2, read_bcd_in s v (by decide) (by omega)]; rfl
  · rw [Memory.read_storeList_out]
    have hlen : (bcdDigits v).length = 3 := rfl
    rw [effAddr_eq_add] at h1 h2
    omega

/-! ### The obligations -/

/-- Settles O41: entry 0x1E of group F; one write of I, split by whether the sum stays in memory. -/
theorem addToIndexResult : Obligations.AddToIndexResult := by
  unfold Obligations.AddToIndexResult
  refine ⟨decodesAs_of_byteKey_groupF 0x1E rfl (fun w h => ?decode) (fun w => ?encode), fun x s =>
    ⟨_, exec_addI x s, setIndex_frame _ _, ?sum⟩⟩
  case decode => rw [decodeGroupF, h]; rfl
  case encode => simp [encode]
  case sum =>
    rw [State.setIndex_index, State.indexSum]
    split
    next hin => rw [BitVec.toNat_ofNat, Nat.mod_eq_of_lt (by omega)]
    next => rfl

/-- Settles O43: entry 0x33 of group F; the handler is three consecutive stores of the digits. -/
theorem storeBcdResult : Obligations.StoreBcdResult := by
  unfold Obligations.StoreBcdResult
  refine ⟨decodesAs_of_byteKey_groupF 0x33 rfl (fun w h => ?decode) (fun w => ?encode), fun x s =>
    ⟨_, exec_ldB x s, storeBytes_frame _ _ _, read_bcd s (s.reg x)⟩⟩
  case decode => rw [decodeGroupF, h]; rfl
  case encode => simp [encode]

/-- Settles O44: entry 0x55 of group F; the handler is consecutive stores of the first registers. -/
theorem registerDumpResult : Obligations.RegisterDumpResult := by
  unfold Obligations.RegisterDumpResult
  refine ⟨decodesAs_of_byteKey_groupF 0x55 rfl (fun w h => ?decode) (fun w => ?encode), fun x s =>
    ⟨_, exec_ldMemVx x s, storeBytes_frame _ _ _, fun _ hk hb => read_dumped_in s hk hb,
      fun _ h => read_dumped_out s h⟩⟩
  case decode => rw [decodeGroupF, h]; rfl
  case encode => simp [encode]

/-- Settles O45: entry 0x65 of group F; the handler is a block of register loads. -/
theorem registerLoadResult : Obligations.RegisterLoadResult := by
  unfold Obligations.RegisterLoadResult
  refine ⟨decodesAs_of_byteKey_groupF 0x65 rfl (fun w h => ?decode) (fun w => ?encode), fun x s =>
    ⟨_, exec_ldVxMem x s, loadRegs_frame _ _ _, fun z => ?value⟩⟩
  case decode => rw [decodeGroupF, h]; rfl
  case encode => simp [encode]
  case value =>
    rw [reg_loadRegs _ _ s z x.isLt, ← effAddr_eq_add]
    exact if_congr (and_congr Nat.lt_succ_iff Iff.rfl) rfl rfl

/-- Settles O13: the two bytes of the fetch are the first two registers that the dump stores. -/
theorem storedWordIsFetchedNext : Obligations.StoredWordIsFetchedNext := by
  unfold Obligations.StoredWordIsFetchedNext
  intro x s t u hx hexec hmem hpc hb
  rw [exec_ldMemVx, Host.Outcome.next.injEq] at hexec
  have hfirst : u.pc.toNat = s.effAddr (0 : RegIdx).val := congrArg BitVec.toNat hpc
  have hsecond : u.pc.toNat + 1 = s.effAddr (1 : RegIdx).val := congrArg (· + 1) hfirst
  rw [fetch_toNat, hmem, ← hexec, State.storeBytes_mem, hsecond, hfirst, read_dumped_in s (Fin.zero_le x) (by omega),
    read_dumped_in s (Fin.le_def.mpr hx) (by omega)]

end Sys2Proof.Machine
end

section
/-! PROOFS of CALL, of a call and its return, and of JP V0 (43_control.md R174, R179; 95_test_vectors.md W5). -/

namespace Sys2Proof.Machine

/-! ### CALL by the depth of the stack (43_control.md R174) -/

theorem exec_call (nnn : BitVec 12) (s : State) : exec (.call nnn) s = .next (callWith s.policies.callFull nnn s) := rfl

theorem exec_jpV0 (nnn : BitVec 12) (s : State) : exec (.jpV0 nnn) s = .next (s.setPc (s.offsetTarget nnn)) := rfl

theorem stackFull_iff (s : State) : s.stackFull = true ↔ s.sp.val = 16 := beq_iff_eq

/-- With an entry free the policy does not matter. -/
theorem callWith_of_room (whenFull : CallFullPolicy) (nnn : BitVec 12) {s : State} (h : s.sp.val < 16) :
    callWith whenFull nnn s = (s.push s.pc).setPc (literalAddr nnn) := by
  unfold callWith
  rw [if_neg (mt (stackFull_iff s).mp (Nat.ne_of_lt h))]

theorem callWith_nop_of_full (nnn : BitVec 12) {s : State} (h : s.sp.val = 16) : callWith .nop nnn s = s := by
  rw [callWith, if_pos ((stackFull_iff s).mpr h)]

theorem callWith_jump_of_full (nnn : BitVec 12) {s : State} (h : s.sp.val = 16) :
    callWith .jump nnn s = s.setPc (literalAddr nnn) := by
  rw [callWith, if_pos ((stackFull_iff s).mpr h)]

theorem exec_call_of_room (nnn : BitVec 12) {s : State} (h : s.sp.val < 16) :
    exec (.call nnn) s = .next ((s.push s.pc).setPc (literalAddr nnn)) := by
  rw [exec_call, callWith_of_room _ _ h]

/-- The depth after a push, where the stack has room. -/
theorem push_sp_of_room {s : State} (v : Word) (h : s.sp.val < 16) : (s.push v).sp.val = s.sp.val + 1 := by
  rw [State.push_sp, Nat.min_eq_left h]

/-- The sum of a 12-bit literal and a byte is far below 2^16 (43_control.md R179). -/
theorem offsetTarget_toNat (s : State) (nnn : BitVec 12) :
    (s.offsetTarget nnn).toNat = nnn.toNat + (s.reg 0).toNat := by
  rw [State.offsetTarget, BitVec.toNat_add, literalAddr_toNat, BitVec.toNat_setWidth]; omega

/-! ### The obligations -/

/-- Settles O47: group 2 is full; the handler is split by whether an entry is free, and with none by the policy. -/
theorem callResult : Obligations.CallResult := by
  unfold Obligations.CallResult
  refine ⟨decodesAs_of_primaryKey 2 rfl (fun w h => ?decode) (fun w => ?encode), fun nnn s hroom =>
    ⟨_, exec_call_of_room nnn hroom, rfl, literalAddr_toNat nnn, push_sp_of_room s.pc hroom,
      fun k => push_entry s s.pc k hroom⟩, fun nnn s hfull hnop => ?nop, fun nnn s hfull hjump => ?jump⟩
  case decode => rw [decode, h]; rfl
  case encode => simp [encode]
  case nop => rw [exec_call, hnop, callWith_nop_of_full nnn hfull]
  case jump => rw [exec_call, hjump, callWith_jump_of_full nnn hfull]; rfl

/-- Settles O48: the entry that RET pops is the one that CALL pushed. -/
theorem callThenReturnRestoresPc : Obligations.CallThenReturnRestoresPc := by
  unfold Obligations.CallThenReturnRestoresPc
  intro nnn s k hk
  have hroom : s.sp.val < 16 := hk ▸ k.isLt
  refine ⟨_, exec_call_of_room nnn hroom, fun v hsp hentry => ?_⟩
  have hdepth : v.sp.val = k.val + 1 := by rw [hsp, hk]; exact push_sp_of_room s.pc hroom
  refine ⟨_, exec_ret_of_nonempty (by omega), ?pc, Fin.ext ?sp⟩
  case pc =>
    calc v.top = v.stack[k] := top_eq v k hdepth.symm
      _ = (s.push s.pc).stack[k] := hentry
      _ = s.pc := by rw [push_entry s s.pc k hroom, if_pos hk]
  case sp => rw [State.setPc_sp, State.pop_sp, hdepth, hk, Nat.add_sub_cancel]

/-- Settles O50: group B is full, and the handler is one write of pc. -/
theorem jumpWithOffsetResult : Obligations.JumpWithOffsetResult := by
  unfold Obligations.JumpWithOffsetResult
  refine ⟨decodesAs_of_primaryKey 11 rfl (fun w h => ?decode) (fun w => ?encode), fun nnn s =>
    ⟨_, exec_jpV0 nnn s, setPc_frame _ _, offsetTarget_toNat s nnn⟩⟩
  case decode => rw [decode, h]; rfl
  case encode => simp [encode]

end Sys2Proof.Machine
end

section
/-! PROOFS of DRW, once and twice, and of the read port pixel by pixel (44_framebuffer.md R193, R194; 60_exceptions.md
R243). -/

namespace Sys2Proof.Machine

/-! ### What the instruction does to the state -/

theorem exec_drw (x y : RegIdx) (n : BitVec 4) (s : State) : exec (.drw x y n) s =
    .next ((s.setFb (drawSprite x y n s).1).setReg 15 (flagByte (drawSprite x y n s).2)) := rfl

theorem flagByte_eq_one_iff (c : Bool) : flagByte c = 0x01 ↔ c = true := by
  cases c <;> decide

theorem flagByte_eq_one_or_zero (c : Bool) : flagByte c = 0x01 ∨ flagByte c = 0x00 := by
  cases c
  case true => exact .inl rfl
  case false => exact .inr rfl

/-- The flag of a draw is 1 exactly when a covered pixel was on. -/
theorem drawSprite_flag (s : State) (x y : RegIdx) (n : BitVec 4) : flagByte (drawSprite x y n s).2 = 0x01 ↔
    ∃ r c, spriteCovers s x y n r c = true ∧ s.fb.pixel r c = true := by
  rw [flagByte_eq_one_iff, drawSprite_collides]

/-- The pixels a sprite covers depend on its place, I and memory alone. -/
theorem spriteCovers_congr {s t : State} {x y : RegIdx} (n : BitVec 4) (hcol : t.startCol x = s.startCol x)
    (hrow : t.startRow y = s.startRow y) (hindex : t.index = s.index) (hmem : t.mem = s.mem) (r c : Nat) :
    spriteCovers t x y n r c = spriteCovers s x y n r c := by
  have haddr : t.effAddr = s.effAddr := funext fun k => congrArg (BitVec.toNat · + k) hindex
  rw [spriteCovers, hcol, hrow, haddr, hmem]; rfl

/-- A draw over the result of a draw that covers the same pixels gives the framebuffer back. -/
theorem drawSprite_twice {s t : State} {x y : RegIdx} {n : BitVec 4} (hfb : t.fb = (drawSprite x y n s).1)
    (hcovers : ∀ r c, spriteCovers t x y n r c = spriteCovers s x y n r c) : (drawSprite x y n t).1 = s.fb := by
  refine framebuffer_ext fun r c => ?_
  rw [drawSprite_pixel, hcovers, hfb, drawSprite_pixel, Bool.xor_assoc, Bool.xor_self, Bool.xor_false]

/-! ### The obligations -/

/-- Settles O53: group D is full; the loop over rows and columns is the pointwise XOR, and VF is written last. -/
theorem drawSpriteIsPointwiseXor : Obligations.DrawSpriteIsPointwiseXor := by
  unfold Obligations.DrawSpriteIsPointwiseXor
  refine ⟨decodesAs_of_primaryKey 13 rfl (fun w h => ?decode) (fun w => ?encode), fun x y n s =>
    ⟨_, exec_drw x y n s, rfl, drawSprite_pixel s x y n, fun hhit => ?hit, fun hmiss => ?miss,
      fun z hz => reg_setReg_other _ _ hz⟩⟩
  case decode => rw [decode, h]; rfl
  case encode => simp [encode]
  case hit => rw [reg_setReg_self]; exact (drawSprite_flag s x y n).mpr hhit
  case miss =>
    rw [reg_setReg_self]
    exact (flagByte_eq_one_or_zero _).resolve_left (mt (drawSprite_flag s x y n).mp hmiss)

/-- Settles O54: the second draw covers the pixels of the first, and each of them flips back. -/
theorem drawTwiceRestoresFramebuffer : Obligations.DrawTwiceRestoresFramebuffer := by
  unfold Obligations.DrawTwiceRestoresFramebuffer
  intro x y n s t hexec hcol hrow
  rw [exec_drw, Host.Outcome.next.injEq] at hexec
  subst hexec
  have hcovers := spriteCovers_congr n hcol hrow rfl rfl
  refine ⟨_, exec_drw x y n _, drawSprite_twice rfl hcovers, ?hit, ?flag⟩ <;> rw [reg_setReg_self]
  case hit => simp only [drawSprite_flag, hcovers]
  case flag => exact flagByte_eq_one_or_zero _

/-- Settles O19: the port's index is split into row and column again. -/
theorem framebufferPortShowsEachPixel : Obligations.FramebufferPortShowsEachPixel := by
  unfold Obligations.FramebufferPortShowsEachPixel
  intro s r c
  have hrow : (r.val * 64 + c.val) / 64 = r.val := by omega
  have hcol : (r.val * 64 + c.val) % 64 = c.val := by omega
  have hpixel : Framebuffer.pixel s.fb r.val c.val = s.fb[r][c] := dif_pos ⟨r.isLt, c.isLt⟩
  rw [State.fbRead, hrow, hcol, hpixel]; rfl

end Sys2Proof.Machine
end

section
/-! PROOFS of the skips on a key and of the writes of the timers (45_timer_input.md R210, R211, R214, R215). -/

namespace Sys2Proof.Machine

/-! ### What the instructions do to the state -/

theorem exec_skp (x : RegIdx) (s : State) : exec (.skp x) s =
    .next (s.skipIf (decide ((s.reg x).toNat < 16) && s.keyPressed (s.reg x).toNat)) := rfl

theorem exec_sknp (x : RegIdx) (s : State) : exec (.sknp x) s =
    .next (s.skipIf (decide ((s.reg x).toNat < 16) && !s.keyPressed (s.reg x).toNat)) := rfl

theorem exec_ldDtVx (x : RegIdx) (s : State) : exec (.ldDtVx x) s = .next { s with dt := s.reg x } := rfl

theorem exec_ldStVx (x : RegIdx) (s : State) : exec (.ldStVx x) s = .next { s with st := s.reg x } := rfl

/-- SKP with a value that names a key (45_timer_input.md R210). -/
theorem exec_skp_of_key {x : RegIdx} {s : State} {k : Fin 16} (hk : (s.reg x).toNat = k.val) :
    exec (.skp x) s = .next { s with pc := if s.keys[k] then s.pc + 2 else s.pc } := by
  rw [exec_skp, skipIf_eq, hk, keyPressed_fin, decide_eq_true k.isLt, Bool.true_and]

/-- SKNP with a value that names a key (45_timer_input.md R211). -/
theorem exec_sknp_of_key {x : RegIdx} {s : State} {k : Fin 16} (hk : (s.reg x).toNat = k.val) :
    exec (.sknp x) s = .next { s with pc := if s.keys[k] then s.pc else s.pc + 2 } := by
  rw [exec_sknp, skipIf_eq, hk, keyPressed_fin, decide_eq_true k.isLt, Bool.true_and]
  cases s.keys[k] <;> rfl

theorem exec_skp_of_no_key {x : RegIdx} {s : State} (h : 16 ≤ (s.reg x).toNat) : exec (.skp x) s = .next s := by
  rw [exec_skp, decide_eq_false (Nat.not_lt.mpr h)]; rfl

theorem exec_sknp_of_no_key {x : RegIdx} {s : State} (h : 16 ≤ (s.reg x).toNat) : exec (.sknp x) s = .next s := by
  rw [exec_sknp, decide_eq_false (Nat.not_lt.mpr h)]; rfl

/-! ### The rows of group E (30_encoding.md R75) -/

/-- A word of group E and the canonical word of its instruction have the same entry of the secondary table. -/
theorem nibbleKey_encode_decodeGroupE (w : Word) : nibbleKey (encode (decodeGroupE w)) = nibbleKey w := by
  unfold decodeGroupE
  split <;> rename_i h <;> simp [encode, h]

/-! ### The obligations -/

/-- Settles O55: entries 0xE and 1 of group E; each handler is split by whether Vx names a key. -/
theorem keySkipResults : Obligations.KeySkipResults := by
  unfold Obligations.KeySkipResults
  refine ⟨decodesAs_of_nibbleKey 14 0xE rfl decode_of_primaryKey_fourteen nibbleKey_encode_decodeGroupE
      (fun w h => ?decodeSkp) (fun w => ?encodeSkp),
    decodesAs_of_nibbleKey 14 1 rfl decode_of_primaryKey_fourteen nibbleKey_encode_decodeGroupE
      (fun w h => ?decodeSknp) (fun w => ?encodeSknp),
    fun x s k hk => ⟨exec_skp_of_key hk, exec_sknp_of_key hk⟩,
    fun x s h => ⟨exec_skp_of_no_key h, exec_sknp_of_no_key h⟩⟩
  case decodeSkp | decodeSknp => rw [decodeGroupE, h]; rfl
  case encodeSkp | encodeSknp => simp [encode]

/-- Settles O58: entries 0x15 and 0x18 of group F; the timer stage of the same cycle counts the new value down. -/
theorem setTimerResults : Obligations.SetTimerResults := by
  unfold Obligations.SetTimerResults
  refine ⟨decodesAs_of_byteKey_groupF 0x15 rfl (fun w h => ?decodeDt) (fun w => ?encodeDt),
    decodesAs_of_byteKey_groupF 0x18 rfl (fun w h => ?decodeSt) (fun w => ?encodeSt),
    fun x s => ⟨exec_ldDtVx x s, exec_ldStVx x s⟩,
    fun x s hpc hi => ⟨_, cycle_of_exec hpc hi (exec_ldDtVx x s.advancePc), decrement_toNat (s.reg x)⟩,
    fun x s hpc hi => ⟨_, cycle_of_exec hpc hi (exec_ldStVx x s.advancePc), decrement_toNat (s.reg x)⟩⟩
  case decodeDt | decodeSt => rw [decodeGroupF, h]; rfl
  case encodeDt | encodeSt => simp [encode]

end Sys2Proof.Machine
end

section
/-! PROOFS of the frames: what an instruction may change, component by component (10_state.md R23 to R32), and the
invariant that the frames leave to five instructions (R27). -/

namespace Sys2Proof.Machine

/-! ### What an instruction may write -/

theorem exec_answers (i : Instr) (s : State) : ∃ t, exec i s = .next t := by
  cases i <;> exact ⟨_, rfl⟩

/-- `s` with what `i` may write taken from `t`: the registers, and each other component that 10_state.md lists for `i`. -/
def written (i : Instr) (s t : State) : State :=
  { s with
    regs := t.regs
    index := if writesIndex i then t.index else s.index
    pc := if writesPc i then t.pc else s.pc
    stack := if writesStack i then t.stack else s.stack
    sp := if writesStack i then t.sp else s.sp
    dt := if writesDt i then t.dt else s.dt
    st := if writesSt i then t.st else s.st
    fb := if writesFb i then t.fb else s.fb
    mem := if storeAddrs i s = [] then s.mem else t.mem
    draws := if drawsByte i then s.draws + 1 else s.draws }

theorem storeAddrs_ldMemVx_ne_nil (x : RegIdx) (s : State) : storeAddrs (.ldMemVx x) s ≠ [] := by
  simp [storeAddrs]

/-- CALL writes pc and the stack only, whatever its policy (43_control.md R174). -/
theorem callWith_frame (whenFull : CallFullPolicy) (nnn : BitVec 12) (s : State) : callWith whenFull nnn s =
    { s with pc := (callWith whenFull nnn s).pc, stack := (callWith whenFull nnn s).stack,
             sp := (callWith whenFull nnn s).sp } := by
  unfold callWith
  split
  · cases whenFull <;> rfl
  · rfl

/-- An instruction changes what it may write and nothing else. -/
theorem exec_frame {i : Instr} {s t : State} (h : exec i s = .next t) : t = written i s t := by
  cases i
  case ret => cases h; split <;> rfl
  case call => cases h; rw [callWith_frame]; rfl
  case seImm | sneImm | seReg | sneReg | skp | sknp => cases h; rw [skipIf_eq]; rfl
  case sub | subn | shr | shl => cases h; exact flagThenResult_frame _ _ _ _ _
  case ldVxK => cases h; split <;> rfl
  case addI x =>
    rw [exec_addI] at h
    cases h; rfl
  case ldF x =>
    rw [exec_ldF] at h
    cases h; rfl
  case ldMemVx x =>
    cases h
    rw [written, if_neg (storeAddrs_ldMemVx_ne_nil x s)]; rfl
  case ldVxMem => cases h; exact loadRegs_frame _ _ _
  all_goals cases h; rfl

section
variable {i : Instr} {s t : State} (h : exec i s = .next t)
include h

theorem index_of_exec (hw : writesIndex i = false) : t.index = s.index := by
  rw [exec_frame h]; exact if_neg (Bool.eq_false_iff.mp hw)

theorem pc_of_exec (hw : writesPc i = false) : t.pc = s.pc := by
  rw [exec_frame h]; exact if_neg (Bool.eq_false_iff.mp hw)

theorem stack_of_exec (hw : writesStack i = false) : t.stack = s.stack := by
  rw [exec_frame h]; exact if_neg (Bool.eq_false_iff.mp hw)

theorem sp_of_exec (hw : writesStack i = false) : t.sp = s.sp := by
  rw [exec_frame h]; exact if_neg (Bool.eq_false_iff.mp hw)

theorem dt_of_exec (hw : writesDt i = false) : t.dt = s.dt := by
  rw [exec_frame h]; exact if_neg (Bool.eq_false_iff.mp hw)

theorem st_of_exec (hw : writesSt i = false) : t.st = s.st := by
  rw [exec_frame h]; exact if_neg (Bool.eq_false_iff.mp hw)

theorem fb_of_exec (hw : writesFb i = false) : t.fb = s.fb := by
  rw [exec_frame h]; exact if_neg (Bool.eq_false_iff.mp hw)

theorem mem_of_exec (hw : storeAddrs i s = []) : t.mem = s.mem := by
  rw [exec_frame h]; exact if_pos hw

theorem draws_of_exec : t.draws = if drawsByte i then s.draws + 1 else s.draws := by
  rw [exec_frame h]; rfl

theorem keys_of_exec : t.keys = s.keys := by
  rw [exec_frame h]; rfl

theorem pendingKeys_of_exec : t.pendingKeys = s.pendingKeys := by
  rw [exec_frame h]; rfl

theorem policies_of_exec : t.policies = s.policies := by
  rw [exec_frame h]; rfl

/-- Registers: the destination, VF and the block of LD Vx, [I] (10_state.md R23). -/
theorem reg_of_exec {z : RegIdx} (hw : writesReg i z = false) : t.reg z = s.reg z := by
  cases i <;> simp only [writesReg, Bool.or_eq_false_iff, beq_eq_false_iff_ne, decide_eq_false_iff_not] at hw
  case ldImm | addImm | ldReg | orReg | andReg | xorReg | ldVxDt | rnd => cases h; exact reg_setReg_other _ _ hw
  case addReg =>
    obtain ⟨hzx, hz⟩ := hw
    cases h
    rw [reg_setReg_other _ _ hzx, reg_setReg_other _ _ hz]
  case sub | subn | shr | shl =>
    obtain ⟨hzx, hz⟩ := hw
    cases h
    exact reg_flagThenResult_kept hzx hz
  case drw => cases h; exact reg_setReg_other _ _ hw
  case ldVxK x =>
    cases h
    split
    · exact reg_setReg_other _ _ hw
    · rfl
  case ldVxMem x =>
    cases h
    rw [reg_loadRegs _ _ s z x.isLt, if_neg fun hin => hw (Nat.lt_succ_iff.mp hin.1)]
  case ret => cases h; split <;> rfl
  case call => cases h; rw [callWith_frame]; rfl
  case seImm | sneImm | seReg | sneReg | skp | sknp => cases h; rw [skipIf_eq]; rfl
  case addI => rw [exec_addI] at h; cases h; rfl
  case ldF => rw [exec_ldF] at h; cases h; rfl
  all_goals cases h; rfl

/-- Memory, address by address: LD B and LD [I] store to their own addresses alone (20_memory.md R54). -/
theorem read_of_exec {a : Nat} (ha : a ∉ storeAddrs i s ∨ 4096 ≤ a) : t.mem.read a = s.mem.read a := by
  by_cases hstores : storeAddrs i s = []
  · rw [mem_of_exec h hstores]
  cases i
  case ldB x =>
    cases h
    have hlen : (bcdDigits (s.reg x)).length = 3 := rfl
    simp only [storeAddrs, effAddr_eq_add s 1, effAddr_eq_add s 2, List.mem_cons, List.not_mem_nil, or_false] at ha
    exact Memory.read_storeList_out _ (by omega)
  case ldMemVx x =>
    cases h
    exact read_dumped_out s (ha.imp_left fun hother k hk e =>
      hother (List.mem_map.mpr ⟨k.val, List.mem_range.mpr (Nat.lt_succ_of_le hk), e.symm⟩))
  all_goals exact absurd rfl hstores

/-- Memory stays in canonical form: the two instructions that store do so by bounds-checked stores. -/
theorem wf_of_exec (hm : s.mem.wf) : t.mem.wf := by
  by_cases hstores : storeAddrs i s = []
  · rw [mem_of_exec h hstores]; exact hm
  cases i
  case ldB | ldMemVx => cases h; exact Memory.wf_storeList hm _ _
  all_goals exact absurd rfl hstores

/-- I stays within memory: a 12-bit literal, a sum that is checked, or a glyph's address (10_state.md R27). -/
theorem index_lt_of_exec (hi : s.index.toNat < memorySize) : t.index.toNat < memorySize := by
  cases hw : writesIndex i
  case false => rw [index_of_exec h hw]; exact hi
  case true =>
    cases i
    case ldI nnn =>
      cases h
      rw [State.setIndex_index, literalAddr_toNat]; exact nnn.isLt
    case addI x =>
      rw [exec_addI] at h
      cases h
      rw [State.setIndex_index]
      split
      next hin => rw [BitVec.toNat_ofNat, Nat.mod_eq_of_lt (by omega)]; exact hin
      next => exact hi
    case ldF x =>
      rw [exec_ldF] at h
      cases h
      rw [State.setIndex_index]
      split
      next hglyph => rw [glyphAddr_toNat hglyph, memorySize]; omega
      next => exact hi
    all_goals cases hw

end

/-! ### What a step can do (40_cycle.md R100) -/

/-- A cycle that answers a next state ran a handler, or skipped the execute stage; then the timers ticked. -/
theorem cycle_cases {s t : State} (h : cycle s = .next t) :
    (∃ u, exec (decode s.fetch) s.advancePc = .next u ∧ t = u.tickTimers) ∨ t = s.advancePc.tickTimers := by
  by_cases hpc : s.pc.toNat ≤ 0x0FFE
  · rw [cycle_in hpc] at h
    obtain ⟨u, hu, ht⟩ := mapNext_eq_next h
    exact .inl ⟨u, hu, ht.symm⟩
  · cases hp : s.policies.fetchOob
    case nop =>
      rw [cycle_out_nop hpc hp] at h
      cases h
      exact .inr rfl
    case fault =>
      rw [cycle_out_fault hpc hp] at h
      cases h

@[simp] theorem hostKeys_mem (s : State) : s.hostKeys.mem = s.mem := by rw [hostKeys_frame]

@[simp] theorem hostKeys_index (s : State) : s.hostKeys.index = s.index := by rw [hostKeys_frame]

theorem policies_of_step {s t : State} (h : step s = .next t) : t.policies = s.policies := by
  rcases cycle_cases h with ⟨u, hu, rfl⟩ | rfl
  · rw [State.tickTimers_policies, policies_of_exec hu, State.advancePc_policies, hostKeys_policies]
  · rw [State.tickTimers_policies, State.advancePc_policies, hostKeys_policies]

/-- A handler keeps the invariant. -/
theorem inv_of_exec {i : Instr} {s t : State} (h : exec i s = .next t) (hs : s.Inv) : t.Inv :=
  ⟨wf_of_exec h hs.1, index_lt_of_exec h hs.2⟩

theorem inv_hostKeys {s : State} (hs : s.Inv) : s.hostKeys.Inv := by
  rw [State.Inv, hostKeys_mem, hostKeys_index]; exact hs

/-! ### The obligations -/

/-- Settles O14: the host's move, the pre-increment and the timer stage leave memory and I alone, and the handler keeps
both properties. -/
theorem stepKeepsMemoryFormAndIndexBound : Obligations.StepKeepsMemoryFormAndIndexBound := by
  unfold Obligations.StepKeepsMemoryFormAndIndexBound
  intro s t hs h
  have hstart : s.hostKeys.advancePc.Inv := inv_hostKeys hs
  rcases cycle_cases h with ⟨u, hexec, rfl⟩ | rfl
  · have hu : u.Inv := inv_of_exec hexec hstart
    exact hu
  · exact hstart

/-- Settles O20: by instruction, each register write names its register. -/
theorem frameOfGeneralRegisters : Obligations.FrameOfGeneralRegisters := by
  unfold Obligations.FrameOfGeneralRegisters
  intro i s
  obtain ⟨t, h⟩ := exec_answers i s
  exact ⟨t, h, fun _ hw => reg_of_exec h hw⟩

/-- Settles O26: a list without addresses leaves memory as it was, and the two instructions with one store nowhere else. -/
theorem frameOfMemory : Obligations.FrameOfMemory := by
  unfold Obligations.FrameOfMemory
  intro i s
  obtain ⟨t, h⟩ := exec_answers i s
  exact ⟨t, h, fun _ ha => read_of_exec h ha, mem_of_exec h⟩

/-- Settles O21: from the frame of every instruction. -/
theorem frameOfIndexRegister : Obligations.FrameOfIndexRegister := by
  unfold Obligations.FrameOfIndexRegister
  intro i s
  obtain ⟨t, h⟩ := exec_answers i s
  exact ⟨t, h, index_of_exec h⟩

/-- Settles O22: from the frame of every instruction. -/
theorem frameOfProgramCounter : Obligations.FrameOfProgramCounter := by
  unfold Obligations.FrameOfProgramCounter
  intro i s
  obtain ⟨t, h⟩ := exec_answers i s
  exact ⟨t, h, pc_of_exec h⟩

/-- Settles O23: from the frame of every instruction. -/
theorem frameOfCallStack : Obligations.FrameOfCallStack := by
  unfold Obligations.FrameOfCallStack
  intro i s
  obtain ⟨t, h⟩ := exec_answers i s
  exact ⟨t, h, fun hw => ⟨stack_of_exec h hw, sp_of_exec h hw⟩⟩

/-- Settles O24: from the frame of every instruction. -/
theorem frameOfTimers : Obligations.FrameOfTimers := by
  unfold Obligations.FrameOfTimers
  intro i s
  obtain ⟨t, h⟩ := exec_answers i s
  exact ⟨t, h, dt_of_exec h, st_of_exec h⟩

/-- Settles O25: from the frame of every instruction. -/
theorem frameOfFramebuffer : Obligations.FrameOfFramebuffer := by
  unfold Obligations.FrameOfFramebuffer
  intro i s
  obtain ⟨t, h⟩ := exec_answers i s
  exact ⟨t, h, fb_of_exec h⟩

/-- Settles O27: from the frame of every instruction, and for a step from those of the stages around it. -/
theorem frameOfInputs : Obligations.FrameOfInputs := by
  unfold Obligations.FrameOfInputs
  refine ⟨fun i s => ?_, fun s t => policies_of_step⟩
  obtain ⟨t, h⟩ := exec_answers i s
  exact ⟨t, h, keys_of_exec h, pendingKeys_of_exec h, policies_of_exec h, draws_of_exec h⟩

end Sys2Proof.Machine
end

section
/-! PROOFS of the noninterference claims: a component that an instruction neither reads nor writes may be changed before it
or after it (40_cycle.md R109; 10_state.md R30 to R32; 00_scope.md R10), and the run under pending keypad writes that
follows from it (70_reset_and_hazards.md R274). -/

namespace Sys2Proof.Machine

/-! ### Overwriting a component -/

/-- A new value for one of the components that few instructions or none read. -/
inductive Hidden where
  | draws (d : Nat)
  | keys (k : Keypad)
  | pendingKeys (ks : List Keypad)
  | st (v : Byte)
  | fb (v : Framebuffer)
  | policies (q : Policies)

/-- The state with that component overwritten. -/
def Hidden.put : Hidden → State → State
  | .draws d, s => { s with draws := d }
  | .keys k, s => { s with keys := k }
  | .pendingKeys ks, s => { s with pendingKeys := ks }
  | .st v, s => { s with st := v }
  | .fb v, s => { s with fb := v }
  | .policies q, s => { s with policies := q }

/-- Whether the instruction reads or writes the component. -/
def Hidden.touchedBy : Hidden → Instr → State → Bool
  | .draws _, i, _ => drawsByte i
  | .keys _, i, _ => readsKeys i
  | .pendingKeys _, _, _ => false
  | .st _, i, _ => writesSt i
  | .fb _, i, _ => writesFb i
  | .policies _, i, s => readsPolicy i s

section
variable (o : Hidden) (s : State)

@[simp] theorem Hidden.put_pc : (o.put s).pc = s.pc := by cases o <;> rfl
@[simp] theorem Hidden.put_sp : (o.put s).sp = s.sp := by cases o <;> rfl
@[simp] theorem Hidden.put_mem : (o.put s).mem = s.mem := by cases o <;> rfl
@[simp] theorem Hidden.put_reg (z : RegIdx) : (o.put s).reg z = s.reg z := by cases o <;> rfl
@[simp] theorem Hidden.put_stackEmpty : (o.put s).stackEmpty = s.stackEmpty := by cases o <;> rfl

theorem Hidden.setReg_put (x : RegIdx) (v : Byte) : (o.put s).setReg x v = o.put (s.setReg x v) := by cases o <;> rfl

theorem Hidden.setPc_put (v : Word) : (o.put s).setPc v = o.put (s.setPc v) := by cases o <;> rfl

theorem Hidden.advancePc_put : (o.put s).advancePc = o.put s.advancePc := by cases o <;> rfl

theorem Hidden.skipIf_put (c : Bool) : (o.put s).skipIf c = o.put (s.skipIf c) := by
  cases c
  case false => rfl
  case true => exact o.advancePc_put s

theorem Hidden.loadReg_put (k a : Nat) : (o.put s).loadReg k a = o.put (s.loadReg k a) := by
  unfold State.loadReg
  split
  · split
    · rw [put_mem, setReg_put]
    · rfl
  · rfl

theorem Hidden.loadRegs_put (a n : Nat) : State.loadRegs a n (o.put s) = o.put (State.loadRegs a n s) := by
  induction n with
  | zero => rfl
  | succ n ih => rw [State.loadRegs, ih, loadReg_put, State.loadRegs]

end

/-! ### Instructions that do not touch the component -/

section
variable {o : Hidden} {s : State}

theorem Hidden.put_policies {i : Instr} (h : o.touchedBy i s = false) (hreads : readsPolicy i s = true) :
    (o.put s).policies = s.policies := by
  cases o
  case policies => exact absurd hreads (Bool.eq_false_iff.mp h)
  all_goals rfl

theorem Hidden.put_keys {i : Instr} (h : o.touchedBy i s = false) (hreads : readsKeys i = true) :
    (o.put s).keys = s.keys := by
  cases o
  case keys => exact absurd hreads (Bool.eq_false_iff.mp h)
  all_goals rfl

theorem Hidden.put_keyPressed (hkeys : (o.put s).keys = s.keys) (k : Nat) :
    (o.put s).keyPressed k = s.keyPressed k := by
  simp only [State.keyPressed, hkeys]

theorem Hidden.put_leastKey (hkeys : (o.put s).keys = s.keys) : (o.put s).leastKey = s.leastKey := by
  simp only [State.leastKey, put_keyPressed hkeys]

/-- Overwriting the component before the instruction is overwriting it after. -/
def Hidden.Commutes (o : Hidden) (i : Instr) (s : State) : Prop := exec i (o.put s) = mapNext o.put (exec i s)

theorem Hidden.commutes_ret : o.Commutes .ret s := by
  rw [Commutes, exec_ret, exec_ret, put_stackEmpty]
  cases s.stackEmpty <;> cases o <;> rfl

theorem Hidden.commutes_call {nnn : BitVec 12} (h : o.touchedBy (.call nnn) s = false) :
    o.Commutes (.call nnn) s := by
  rw [Commutes]
  by_cases hroom : s.sp.val < 16
  · rw [exec_call_of_room nnn hroom, exec_call_of_room nnn (by rwa [put_sp])]
    cases o <;> rfl
  · have hfull : s.sp.val = 16 := by omega
    have hfull' : (o.put s).sp.val = 16 := by rwa [put_sp]
    rw [exec_call, exec_call, put_policies h ((stackFull_iff s).mpr hfull)]
    cases s.policies.callFull
    case nop => rw [callWith_nop_of_full nnn hfull, callWith_nop_of_full nnn hfull']; rfl
    case jump => rw [callWith_jump_of_full nnn hfull, callWith_jump_of_full nnn hfull', setPc_put]; rfl

/-- An instruction of two assignments: the order of the writes is kept, or it does not matter to the result. -/
theorem Hidden.commutes_flagThenResult {i : Instr} (h : o.touchedBy i s = false) (x : RegIdx) (flag : State → Byte)
    (result : State → Byte)
    (hexec : ∀ t, exec i t = .next (flagThenResult t.policies.aluFlagAlias (flag t) x result t))
    (hflag : flag (o.put s) = flag s) (hput : ∀ t, result (o.put t) = result t)
    (hunread : readsPolicy i s = false → result (s.setReg 15 (flag s)) = result s) : o.Commutes i s := by
  rw [Commutes, hexec, hexec, hflag]
  cases hreads : readsPolicy i s
  case true =>
    rw [put_policies h hreads]
    cases s.policies.aluFlagAlias <;> simp only [flagThenResult, setReg_put, hput, mapNext]
  case false =>
    have hsame := hunread hreads
    cases (o.put s).policies.aluFlagAlias <;> cases s.policies.aluFlagAlias <;>
      simp only [flagThenResult, setReg_put, hput, hsame, mapNext]

theorem Hidden.commutes_sub {x y : RegIdx} (h : o.touchedBy (.sub x y) s = false) : o.Commutes (.sub x y) s := by
  refine commutes_flagThenResult h x (fun t => notBorrowFlag (t.reg x) (t.reg y)) (fun t => t.reg x - t.reg y)
    (exec_sub x y) (by simp) (by simp) fun hreads => ?_
  obtain ⟨hx, hy⟩ : x ≠ 15 ∧ y ≠ 15 := by simpa [readsPolicy] using hreads
  rw [reg_setReg_other _ _ hx, reg_setReg_other _ _ hy]

theorem Hidden.commutes_subn {x y : RegIdx} (h : o.touchedBy (.subn x y) s = false) : o.Commutes (.subn x y) s := by
  refine commutes_flagThenResult h x (fun t => notBorrowFlag (t.reg y) (t.reg x)) (fun t => t.reg y - t.reg x)
    (exec_subn x y) (by simp) (by simp) fun hreads => ?_
  obtain ⟨hx, hy⟩ : x ≠ 15 ∧ y ≠ 15 := by simpa [readsPolicy] using hreads
  rw [reg_setReg_other _ _ hx, reg_setReg_other _ _ hy]

theorem Hidden.commutes_shr {x : RegIdx} (h : o.touchedBy (.shr x) s = false) : o.Commutes (.shr x) s := by
  refine commutes_flagThenResult h x (fun t => shrFlag (t.reg x)) (fun t => t.reg x >>> 1) (exec_shr x) (by simp)
    (by simp) fun hreads => ?_
  rw [reg_setReg_other _ _ (by simpa [readsPolicy] using hreads)]

theorem Hidden.commutes_shl {x : RegIdx} (h : o.touchedBy (.shl x) s = false) : o.Commutes (.shl x) s := by
  refine commutes_flagThenResult h x (fun t => shlFlag (t.reg x)) (fun t => t.reg x <<< 1) (exec_shl x) (by simp)
    (by simp) fun hreads => ?_
  rw [reg_setReg_other _ _ (by simpa [readsPolicy] using hreads)]

theorem Hidden.commutes_ldVxK {x : RegIdx} (h : o.touchedBy (.ldVxK x) s = false) : o.Commutes (.ldVxK x) s := by
  have hexec (t : State) : exec (.ldVxK x) t = execLdVxK x t := rfl
  rw [Commutes, hexec, hexec, execLdVxK, execLdVxK, put_leastKey (put_keys h rfl)]
  cases s.leastKey <;> cases o <;> rfl

/-- An instruction that neither reads nor writes the component does the same whatever it holds. -/
theorem Hidden.commutes_of_untouched {i : Instr} (h : o.touchedBy i s = false) : o.Commutes i s := by
  cases i
  case ret => exact commutes_ret
  case call => exact commutes_call h
  case seImm | sneImm | seReg | sneReg =>
    simp only [Commutes, exec_seImm, exec_sneImm, exec_seReg, exec_sneReg, put_reg, skipIf_put, mapNext]
  case sub => exact commutes_sub h
  case subn => exact commutes_subn h
  case shr => exact commutes_shr h
  case shl => exact commutes_shl h
  case skp | sknp =>
    simp only [Commutes, exec_skp, exec_sknp, put_reg, put_keyPressed (put_keys h rfl), skipIf_put, mapNext]
  case ldVxK => exact commutes_ldVxK h
  case addI | ldF =>
    simp only [Commutes, exec_addI, exec_ldF]
    cases o <;> rfl
  case ldVxMem x =>
    have haddr : (o.put s).effAddr 0 = s.effAddr 0 := by cases o <;> rfl
    rw [Commutes, exec_ldVxMem, exec_ldVxMem, haddr, loadRegs_put]; rfl
  case cls | drw =>
    cases o
    case fb => cases h
    all_goals rfl
  case rnd =>
    cases o
    case draws => cases h
    all_goals rfl
  case ldStVx =>
    cases o
    case st => cases h
    all_goals rfl
  all_goals cases o <;> rfl

/-! ### The step around the instruction -/

theorem mapNext_mapNext (f g : State → State) (r : Result) : mapNext f (mapNext g r) = mapNext (f ∘ g) r := by
  cases r <;> rfl

theorem Hidden.put_fetch : (o.put s).fetch = s.fetch := by
  cases o <;> rfl

theorem Hidden.touchedBy_advancePc (i : Instr) : o.touchedBy i s.advancePc = o.touchedBy i s := by
  cases o <;> rfl

/-- A cycle that fetches such an instruction does the same whatever the component holds, if the timer stage, too, keeps
it. -/
theorem Hidden.cycle_put (hpc : s.pc.toNat ≤ 0x0FFE) (htick : ∀ t : State, (o.put t).tickTimers = o.put t.tickTimers)
    (h : o.touchedBy (decode s.fetch) s = false) : cycle (o.put s) = mapNext o.put (cycle s) := by
  have hcommutes := commutes_of_untouched ((touchedBy_advancePc (s := s) _).trans h)
  have hstages : State.tickTimers ∘ o.put = o.put ∘ State.tickTimers := funext htick
  rw [cycle_in hpc, cycle_in (by rwa [put_pc]), put_fetch, advancePc_put, hcommutes, mapNext_mapNext, mapNext_mapNext,
    hstages]

end

/-- No cycle reads or writes what the host has pending. -/
theorem cycle_put_pendingKeys (ks : List Keypad) (s : State) : cycle ((Hidden.pendingKeys ks).put s) =
    mapNext (Hidden.pendingKeys ks).put (cycle s) := by
  by_cases hpc : s.pc.toNat ≤ 0x0FFE
  · exact Hidden.cycle_put hpc (fun _ => rfl) rfl
  · have hpc' : ¬ ((Hidden.pendingKeys ks).put s).pc.toNat ≤ 0x0FFE := hpc
    cases hp : s.policies.fetchOob
    case nop => rw [cycle_out_nop hpc hp, cycle_out_nop hpc' hp]; rfl
    case fault => rw [cycle_out_fault hpc hp, cycle_out_fault hpc' hp]; rfl

/-- A step with a keypad write pending is a cycle under that keypad. -/
theorem step_of_pendingKeys (k : Keypad) (ks : List Keypad) (s : State) :
    step { s with pendingKeys := k :: ks } = mapNext (Hidden.pendingKeys ks).put (cycle (s.setKeys k)) :=
  cycle_put_pendingKeys ks (s.setKeys k)

theorem run_succ_of_next {M : Host.Core} {n : Nat} {s t : M.State} (h : M.step s = .next t) :
    M.run (n + 1) s = M.run n t := by
  rw [Host.Core.run, h]

theorem run_succ_of_fault {M : Host.Core} {n : Nat} {s : M.State} {r : M.Fault} (h : M.step s = .fault r) :
    M.run (n + 1) s = .fault r := by
  rw [Host.Core.run, h]

theorem run_succ_of_refused {M : Host.Core} {n : Nat} {s : M.State} {r : M.Refusal} (h : M.step s = .refused r) :
    M.run (n + 1) s = .refused r := by
  rw [Host.Core.run, h]

/-- A run with the host's writes pending is a run of one cycle for each. -/
theorem run_pendingKeys (ks : List Keypad) (s : State) :
    Host.Core.run core ks.length { s with pendingKeys := ks } = runKeys ks { s with pendingKeys := [] } := by
  induction ks generalizing s with
  | nil => rfl
  | cons k ks ih =>
    have hstep : core.step { s with pendingKeys := k :: ks } =
        mapNext (Hidden.pendingKeys ks).put (cycle (s.setKeys k)) := step_of_pendingKeys k ks s
    have hcycle : cycle (State.setKeys k { s with pendingKeys := [] }) =
        mapNext (Hidden.pendingKeys []).put (cycle (s.setKeys k)) := cycle_put_pendingKeys [] (s.setKeys k)
    rw [runKeys, hcycle]
    cases h : cycle (s.setKeys k) <;> rw [h] at hstep
    case next t => exact (run_succ_of_next hstep).trans (ih t)
    case fault r => exact run_succ_of_fault hstep
    case refused r => exact run_succ_of_refused hstep

/-! ### The obligations -/

/-- Settles O28: neither the draw counter nor the keypad is touched by the instruction. -/
theorem inputsAreReadOnlyByTheirInstructions : Obligations.InputsAreReadOnlyByTheirInstructions := by
  unfold Obligations.InputsAreReadOnlyByTheirInstructions
  exact ⟨fun _ _ d h => Hidden.commutes_of_untouched (o := .draws d) h,
    fun _ _ k h => Hidden.commutes_of_untouched (o := .keys k) h⟩

/-- Settles O29: neither ST nor the framebuffer is touched by the instruction. -/
theorem soundTimerAndFramebufferAreUnreadable : Obligations.SoundTimerAndFramebufferAreUnreadable := by
  unfold Obligations.SoundTimerAndFramebufferAreUnreadable
  exact ⟨fun _ _ v h => Hidden.commutes_of_untouched (o := .st v) h,
    fun _ _ fb h => Hidden.commutes_of_untouched (o := .fb fb) h⟩

/-- Settles O38: the policies are not touched by the instruction, nor by the fetch in bounds and the timer stage around
it. -/
theorem policiesMatterOnlyWhereTheSpecSays : Obligations.PoliciesMatterOnlyWhereTheSpecSays := by
  unfold Obligations.PoliciesMatterOnlyWhereTheSpecSays
  exact ⟨fun _ _ q h => Hidden.commutes_of_untouched (o := .policies q) h,
    fun _ q hpc h => Hidden.cycle_put (o := .policies q) hpc (fun _ => rfl) h⟩

/-- Settles O12: by induction on the snapshots, since a cycle does not touch those still pending. -/
theorem pendingKeysRunIsKeypadSequenceRun : Obligations.PendingKeysRunIsKeypadSequenceRun := by
  unfold Obligations.PendingKeysRunIsKeypadSequenceRun
  exact run_pendingKeys

end Sys2Proof.Machine
end

section
/-! PROOFS of the step as a whole (40_cycle.md R100 to R110; 60_exceptions.md R230, R233, R238). -/

namespace Sys2Proof.Machine

/-- Two bytes that decode to `i` are the word that the dispatcher takes to `i`. -/
theorem decode_of_decodeBytes {hi lo : Byte} {i : Instr} (h : decodeBytes [hi, lo] = .ok (i, [])) :
    decode (wordOfBytes hi lo) = i := by
  simpa [decodeBytes] using h

/-- A cycle answers a next state unless its fetch is out of bounds and the policy is to fault. -/
theorem cycle_answers {s : State} (h : s.policies.fetchOob = .nop ∨ s.pc.toNat ≤ 0x0FFE) : ∃ u,
    (if s.pc.toNat ≤ 0x0FFE then exec (decode s.fetch) s.advancePc else .next s.advancePc) = .next u ∧
    cycle s = .next u.tickTimers := by
  by_cases hpc : s.pc.toNat ≤ 0x0FFE
  · obtain ⟨u, hu⟩ := exec_answers (decode s.fetch) s.advancePc
    exact ⟨u, by rw [if_pos hpc, hu], by rw [cycle_in hpc, hu, mapNext]⟩
  · exact ⟨s.advancePc, if_neg hpc, cycle_out_nop hpc (h.resolve_right hpc)⟩

theorem step_answers {s : State} (h : s.policies.fetchOob = .nop ∨ s.pc.toNat ≤ 0x0FFE) : ∃ t, step s = .next t := by
  rw [← hostKeys_policies, ← hostKeys_pc] at h
  obtain ⟨u, -, hu⟩ := cycle_answers h
  exact ⟨_, hu⟩

/-- A step whose fetch is out of bounds under `fault` (60_exceptions.md R233). -/
theorem step_faults {s : State} (hpc : ¬ s.hostKeys.pc.toNat ≤ 0x0FFE) (hp : s.hostKeys.policies.fetchOob = .fault) :
    step s = .fault (.fetchOutOfBounds s.hostKeys.pc) :=
  cycle_out_fault hpc hp

/-! ### The obligations -/

/-- Settles O11: the handler, or the skipped execute stage, and then the countdown. -/
theorem timersCountDownOncePerStep : Obligations.TimersCountDownOncePerStep := by
  unfold Obligations.TimersCountDownOncePerStep
  intro s h
  obtain ⟨u, hu, hcycle⟩ := cycle_answers h
  exact ⟨u, u.tickTimers, hu, hcycle, decrement_toNat u.dt, decrement_toNat u.st, rfl⟩

/-- Settles O8: the fetched word is the two bytes at pc, so the cycle decodes it to `i`. -/
theorem stepRunsDecodedInstruction : Obligations.StepRunsDecodedInstruction := by
  unfold Obligations.StepRunsDecodedInstruction
  rintro s h i rfl hpc hi -
  have hdecode : decode s.hostKeys.fetch = i := decode_of_decodeBytes hi
  rw [step, cycle_in hpc, hdecode]; rfl

/-- Settles O9: the three branches of the fetch. -/
theorem fetchOutOfBoundsByPolicy : Obligations.FetchOutOfBoundsByPolicy := by
  unfold Obligations.FetchOutOfBoundsByPolicy
  refine ⟨?nop, ?fault, fun s hpc => ?inBounds⟩
  case nop =>
    rintro s h rfl hpc hp
    exact ⟨_, cycle_out_nop hpc hp, rfl, decrement_toNat s.hostKeys.dt, decrement_toNat s.hostKeys.st, rfl⟩
  case fault =>
    rintro s h rfl hpc hp
    exact step_faults hpc hp
  case inBounds => rw [cycleWith_in .fault hpc, cycleWith_in .nop hpc]

/-- Settles O10: every handler answers a next state, so only the fetch can stop a step. -/
theorem stepAlwaysAnswersANextState : Obligations.StepAlwaysAnswersANextState := by
  unfold Obligations.StepAlwaysAnswersANextState
  refine ⟨exec_answers, fun s h => step_answers h, fun s => ?_⟩
  by_cases hpc : s.pc.toNat ≤ 0x0FFE
  · exact .inl (step_answers (.inr hpc))
  cases hp : s.policies.fetchOob
  case nop => exact .inl (step_answers (.inl hp))
  case fault =>
    have hfault := step_faults (s := s) (by rwa [hostKeys_pc]) (by rwa [hostKeys_policies])
    rw [hostKeys_pc] at hfault
    exact .inr ⟨hfault, rfl, Nat.lt_of_not_le hpc⟩

end Sys2Proof.Machine
end

section
/-! PROOFS of the memory's canonical form, and of the state after construction (20_memory.md R50;
70_reset_and_hazards.md R260, R265). -/

namespace Sys2Proof.Machine

/-! ### A canonical memory is determined by what it reads -/

theorem Memory.read_of_mem {m : Memory} (hm : m.wf) {c : Host.Cell} (hc : c ∈ m) : m.read c.1 = c.2 := by
  obtain ⟨hsorted, hcells⟩ := hm
  clear hcells
  induction m with
  | nil => cases hc
  | cons d m ih =>
    obtain ⟨hd, hsorted⟩ := List.pairwise_cons.mp hsorted
    rcases List.mem_cons.mp hc with rfl | hc
    · exact if_pos rfl
    · exact (if_neg (Nat.ne_of_lt (hd c hc))).trans (ih hc hsorted)

/-- The cells of a canonical memory are the addresses in bounds that read otherwise than after reset. -/
theorem Memory.mem_iff {m : Memory} (hm : m.wf) (c : Host.Cell) :
    c ∈ m ↔ c.1 < 4096 ∧ m.read c.1 = c.2 ∧ c.2 ≠ unlisted c.1 := by
  constructor
  · intro hc
    obtain ⟨hbound, hdiffers⟩ := hm.2 c hc
    exact ⟨hbound, read_of_mem hm hc, hdiffers⟩
  · rintro ⟨-, hread, hdiffers⟩
    by_contra hc
    refine hdiffers (hread.symm.trans (read_of_not_listed fun d hd hdc => hc ?_))
    have hv : d.2 = c.2 := by rw [← read_of_mem hm hd, hdc, hread]
    rwa [← Prod.ext hdc hv]

theorem Memory.eq_of_read_eq {m n : Memory} (hm : m.wf) (hn : n.wf)
    (h : ∀ a, a < 4096 → m.read a = n.read a) : m = n := by
  have hirreflexive : Std.Irrefl (fun c d : Host.Cell => c.1 < d.1) := ⟨fun c => Nat.lt_irrefl c.1⟩
  refine List.Pairwise.eq_of_mem_iff hm.1 hn.1 fun c => ?_
  rw [mem_iff hm, mem_iff hn]
  exact and_congr_right fun hc => by rw [h c.1 hc]

/-! ### The state after construction (70_reset_and_hazards.md R260) -/

theorem font_length : font.length = 80 := rfl

/-- The reset contents: the default FONT and 0x00 around it. -/
theorem Memory.unlisted_eq (a : Nat) :
    unlisted a = if 0x050 ≤ a ∧ a < 0x0A0 then font.getD (a - 0x050) 0x00 else 0x00 := by
  unfold unlisted fontBase
  split_ifs with hlow hin hin
  · rfl
  · exact List.getD_eq_default _ _ (by rw [font_length]; omega)
  · exact absurd hin.1 hlow
  · rfl

theorem Memory.unlisted_of_outside_font {a : Nat} (h : a < 0x050 ∨ 0x0A0 ≤ a) : unlisted a = 0x00 := by
  rw [unlisted_eq, if_neg (by omega)]

@[simp] theorem construct_mem (p : Params) (keys : Keypad) :
    (State.construct p keys).mem = Memory.storeList [] 0x050 p.font.toList := rfl

theorem read_construct_font (p : Params) (keys : Keypad) (k : Fin 80) :
    (State.construct p keys).mem.read (0x050 + k.val) = p.font[k] := by
  have hlen : p.font.toList.length = 80 := Vector.length_toList
  rw [construct_mem, Memory.read_storeList_in _ (by omega) (by omega) (by omega), Nat.add_sub_cancel_left]
  simp

theorem read_construct_outside_font (p : Params) (keys : Keypad) {a : Nat} (h : a < 0x050 ∨ 0x0A0 ≤ a) :
    (State.construct p keys).mem.read a = 0x00 := by
  have hlen : p.font.toList.length = 80 := Vector.length_toList
  rw [construct_mem, Memory.read_storeList_out _ (by omega)]
  exact Memory.unlisted_of_outside_font h

/-- Storing the default FONT lists nothing, the canonical form being unique. -/
theorem storeList_default_font : Memory.storeList [] 0x050 params.font.toList = [] := by
  apply Memory.eq_of_read_eq (Memory.wf_storeList Memory.wf_nil _ _) Memory.wf_nil
  intro a ha
  have hempty : Memory.read [] a = Memory.unlisted a := rfl
  have hfont : params.font.toList = font := rfl
  rw [Memory.read_storeList, hfont, hempty]
  split_ifs with hin
  · rw [Memory.unlisted_eq, if_pos ⟨hin.1, hin.2.1⟩]
  · rfl

theorem reset_eq_construct : State.reset = State.construct params (Vector.replicate 16 false) := by
  rw [construct_eq, storeList_default_font]; rfl

theorem reset_reg (z : RegIdx) : State.reset.reg z = 0x00 := Vector.getElem_replicate z.isLt

theorem reset_stack (k : Fin 16) : State.reset.stack[k] = 0x0000 := Vector.getElem_replicate k.isLt

theorem reset_pixel (r c : Nat) : State.reset.fb.pixel r c = false := pixel_blank r c

theorem reset_index_lt : State.reset.index.toNat < memorySize := by decide

theorem inv_construct (p : Params) (keys : Keypad) : (State.construct p keys).Inv :=
  ⟨Memory.wf_storeList Memory.wf_nil _ _, reset_index_lt⟩

theorem inv_loadProgram {s : State} (hs : s.Inv) (image : List Byte) : (s.loadProgram image).Inv :=
  ⟨Memory.wf_storeList hs.1 _ _, hs.2⟩

/-! ### The obligations -/

/-- Settles O15: construction and the load are bounds-checked stores, and I is 0. -/
theorem bootMeetsMemoryFormAndIndexBound : Obligations.BootMeetsMemoryFormAndIndexBound := by
  unfold Obligations.BootMeetsMemoryFormAndIndexBound
  exact ⟨⟨Memory.wf_nil, reset_index_lt⟩,
    fun p keys => ⟨inv_construct p keys, fun image => inv_loadProgram (inv_construct p keys) image⟩⟩

/-- Settles O16: what a canonical memory reads decides its cells, and their order is their addresses'. -/
theorem canonicalMemoriesReadingAlikeAreEqual : Obligations.CanonicalMemoriesReadingAlikeAreEqual := by
  unfold Obligations.CanonicalMemoriesReadingAlikeAreEqual
  exact fun _ _ hm hn h => Memory.eq_of_read_eq hm hn h

/-- Settles O60: zeroes, and the 80 stores of FONT, none of them skipped. -/
theorem constructionByComponent : Obligations.ConstructionByComponent := by
  unfold Obligations.ConstructionByComponent
  rintro p keys t rfl
  exact ⟨fun a ha => read_construct_outside_font p keys (.inl ha), read_construct_font p keys,
    fun a ha _ => read_construct_outside_font p keys (.inr ha), reset_reg, rfl, rfl, reset_stack, rfl, rfl, rfl,
    reset_pixel, rfl, rfl⟩

/-- Settles O17: the default FONT is what an unlisted address reads as, so construction with it lists nothing. -/
theorem resetStateByComponent : Obligations.ResetStateByComponent := by
  unfold Obligations.ResetStateByComponent
  exact ⟨reset_eq_construct, reset_reg, rfl, rfl, reset_stack, rfl, rfl, rfl, reset_pixel, font_length,
    Memory.unlisted_eq⟩

end Sys2Proof.Machine
end
